-- ==== Sys2Proof/Word.lean ====
section
/-!
DEFINITION. Widths of the block's words (00_scope.md R10). A `Byte` is one register-file byte, one wire byte or the
shift register; a `Word` is the application port's data word.
-/

namespace Sys2Proof

/-- One byte of the register file or of the wire (00_scope.md R10). -/
abbrev Byte := BitVec 8

/-- The application port's data words `wdata` and `rdata` (00_scope.md R10). -/
abbrev Word := BitVec 32

end Sys2Proof
end

