-- ==== Sys2Proof/Config.lean ====
section
/-!
DEFINITION. The parameters of an instance of the block (00_scope.md section 4). `Params` is what a statement about every
instance quantifies over; `Config.params` is the instance `State.reset` belongs to, with RF_INIT, SLAVE_ADDR and
SPIN_CAP left open as constants without a body (log 8).
-/

namespace Sys2Proof

/-- The parameters of one instance: N, RF_INIT and SPIN_CAP. N is held as its highest index `N - 1`, so that no
instance with N outside 1..256 can be written down (00_scope.md R6, 93_implementation_defined.md U17). -/
structure Params where
  /-- `N - 1`, the highest register-file index (R6). -/
  lastIndex : Fin 256
  /-- RF_INIT (R8): entry `i` is the byte at index `i` after power-on and after every reset; an entry that is missing
  is 0, so every function from [0, N) to bytes is some list. -/
  rfInit : List Byte
  /-- SPIN_CAP (R9), positive. No rule reads it: the clock-release spin writes no state (70_reset_and_hazards.md R244, log 9). -/
  spinCap : ℕ+
  deriving DecidableEq, Repr

/-- N, the register-file capacity in bytes (00_scope.md R6). -/
def Params.n (p : Params) : Nat := p.lastIndex.val + 1

/-- RF_INIT of the instance `State.reset` belongs to: OPEN (00_scope.md R8), so without a body (log 8). -/
opaque Config.rfInit : List Byte

/-- SLAVE_ADDR, the level of `cfg_addr[6:0]` at reset: OPEN (00_scope.md R7), so without a body (log 8). -/
opaque Config.slaveAddr : BitVec 7

/-- SPIN_CAP: OPEN (00_scope.md R9), so without a body (log 8). -/
opaque Config.spinCap : ℕ+

/-- The instance `State.reset` belongs to. N is 256, the spec's default (00_scope.md R6; DESIGN CHOICE, log 7). -/
def Config.params : Params :=
  { lastIndex := 255, rfInit := Config.rfInit, spinCap := Config.spinCap }

end Sys2Proof
end

