-- ==== Sys2Proof/Syntax.lean ====
section
/-!
DEFINITION. The instructions: one constructor per row of spec/opcode_table.json. The rows stand in four encoding spaces
(30_encoding.md): event dispatch keys (R86), application commands (R88), bus actions (R85) and wire address bytes (R80).
-/

namespace Sys2Proof

/-- What an agent's step can be, one constructor per row of the opcode table. -/
inductive Instr where
  -- event passes of the protocol engine: 6-bit dispatch key (30_encoding.md R86, R87)
  /-- START, key `01 sss a`: the START pass (R116); `st` and `ap` are key bits it ignores. -/
  | start (st : BitVec 3) (ap : Bool)
  /-- OVF.AWAIT_ADDRESS.BYTE, key `10 000 0`: the address matcher (R117). -/
  | ovfAwaitAddressByte
  /-- OVF.AWAIT_ADDRESS.ACK, key `10 000 1` (R118). -/
  | ovfAwaitAddressAck
  /-- OVF.AWAIT_REGISTER_POINTER.BYTE, key `10 001 0` (R119). -/
  | ovfAwaitRegisterPointerByte
  /-- OVF.AWAIT_REGISTER_POINTER.ACK, key `10 001 1` (R120). -/
  | ovfAwaitRegisterPointerAck
  /-- OVF.WRITE_DATA.BYTE, key `10 010 0` (R121). -/
  | ovfWriteDataByte
  /-- OVF.WRITE_DATA.ACK, key `10 010 1` (R122). -/
  | ovfWriteDataAck
  /-- OVF.POST_WRITE_ACK.BYTE, key `10 011 0` (R123). -/
  | ovfPostWriteAckByte
  /-- OVF.POST_WRITE_ACK.ACK, key `10 011 1` (R124). -/
  | ovfPostWriteAckAck
  /-- OVF.READ_DATA_PRE.ACK, key `10 100 1` (R125). -/
  | ovfReadDataPreAck
  /-- OVF.READ_DATA_PRE.BYTE, key `10 100 0` (R126). -/
  | ovfReadDataPreByte
  /-- OVF.READ_ACK_POLL.BYTE, key `10 101 0` (R127). -/
  | ovfReadAckPollByte
  /-- OVF.READ_ACK_POLL.ACK, key `10 101 1` (R128). -/
  | ovfReadAckPollAck
  /-- OVF.RESERVED_STATE, key `10 11s a` (R129); `st` is 6 or 7 in a well-formed term. -/
  | ovfReservedState (st : BitVec 3) (ap : Bool)
  -- application commands: 4-bit command with its operands (30_encoding.md R88, R89, R91)
  /-- GET.U8, cmd `0000` (R153). -/
  | getU8 (idx : Byte)
  /-- GET.U16, cmd `0001` (R154). -/
  | getU16 (idx : Byte)
  /-- GET.U32, cmd `0010` (R155). -/
  | getU32 (idx : Byte)
  /-- GET.S8, cmd `0100` (R156). -/
  | getS8 (idx : Byte)
  /-- GET.S16, cmd `0101` (R157). -/
  | getS16 (idx : Byte)
  /-- GET.S32, cmd `0110` (R158). -/
  | getS32 (idx : Byte)
  /-- SET.U8, cmd `1000` (R159). -/
  | setU8 (idx : Byte) (wdata : Word)
  /-- SET.U16, cmd `1001` (R160). -/
  | setU16 (idx : Byte) (wdata : Word)
  /-- SET.U32, cmd `1010` (R161). -/
  | setU32 (idx : Byte) (wdata : Word)
  /-- SET.S8, cmd `1100` (R162). -/
  | setS8 (idx : Byte) (wdata : Word)
  /-- SET.S16, cmd `1101` (R163). -/
  | setS16 (idx : Byte) (wdata : Word)
  /-- SET.S32, cmd `1110` (R164). -/
  | setS32 (idx : Byte) (wdata : Word)
  /-- RESERVED_WIDTH, cmd `ds11` (R165): `dir` and `sgn` are the command's bits 3 and 2; the operands are ignored. -/
  | reservedWidth (dir sgn : Bool) (idx : Byte) (wdata : Word)
  -- bus-master actions: 2-bit code (30_encoding.md R85)
  /-- CLOCK, code `0b` (R183): one SCL pulse with the master's SDA level `b`. -/
  | clock (b : Bool)
  /-- START_COND, code `10` (R186): the START condition. -/
  | startCond
  /-- STOP_COND, code `11` (R187): the STOP condition. -/
  | stopCond
  -- wire address bytes: 8 bits, MSB first (30_encoding.md R80)
  /-- ADDR.W, byte `aaaaaaa0` (R80, R117): the master sends the address byte with R/W = 0. -/
  | addrW (a : BitVec 7)
  /-- ADDR.R, byte `aaaaaaa1` (R80, R117): the master sends the address byte with R/W = 1. -/
  | addrR (a : BitVec 7)
  deriving DecidableEq, Repr

end Sys2Proof
end

