-- ==== Sys2Proof/WellFormed.lean ====
section
/-!
DEFINITION. Which terms of `Instr` are instructions of the block. Widths are in the types; the one check left is that the
state code of OVF.RESERVED_STATE is a reserved one (10_state.md R20, 30_encoding.md R87).
-/

namespace Sys2Proof

/-- The state codes 6 and 7, which are reserved (10_state.md R20). -/
def reservedCode (st : BitVec 3) : Bool := decide (6 ≤ st.toNat)

/-- A term stands for an encoding of the opcode table. -/
def Instr.wf : Instr → Bool
  | .start _ _ => true
  | .ovfAwaitAddressByte => true
  | .ovfAwaitAddressAck => true
  | .ovfAwaitRegisterPointerByte => true
  | .ovfAwaitRegisterPointerAck => true
  | .ovfWriteDataByte => true
  | .ovfWriteDataAck => true
  | .ovfPostWriteAckByte => true
  | .ovfPostWriteAckAck => true
  | .ovfReadDataPreAck => true
  | .ovfReadDataPreByte => true
  | .ovfReadAckPollByte => true
  | .ovfReadAckPollAck => true
  | .ovfReservedState st _ => reservedCode st
  | .getU8 _ => true
  | .getU16 _ => true
  | .getU32 _ => true
  | .getS8 _ => true
  | .getS16 _ => true
  | .getS32 _ => true
  | .setU8 _ _ => true
  | .setU16 _ _ => true
  | .setU32 _ _ => true
  | .setS8 _ _ => true
  | .setS16 _ _ => true
  | .setS32 _ _ => true
  | .reservedWidth _ _ _ _ => true
  | .clock _ => true
  | .startCond => true
  | .stopCond => true
  | .addrW _ => true
  | .addrR _ => true

end Sys2Proof
end

