-- ==== Sys2Proof/Decode.lean ====
section
/-!
DEFINITION. Decoding and encoding (30_encoding.md). An encoded thing belongs to one of four spaces, each with its own port
(30_encoding.md's opening list): dispatch keys, application commands with their operands, bus action codes, wire
address bytes. `decode` is total and rejects by name; `encode` is written from the same tables.
-/

namespace Sys2Proof

/-- One encoded step, on the port it stands on. -/
inductive Encoded where
  /-- A 6-bit dispatch key `ev ‖ st ‖ ap` of the engine (R86). -/
  | event (key : BitVec 6)
  /-- A 4-bit command with the operands of the application port (R88). -/
  | command (cmd : BitVec 4) (idx : Byte) (wdata : Word)
  /-- A 2-bit action code of the bus master (R85). -/
  | action (code : BitVec 2)
  /-- An 8-bit address byte on the wire (R80). -/
  | wire (byte : Byte)
  deriving DecidableEq, Repr

/-- Why a word is no instruction. -/
inductive DecodeError where
  /-- `ev = 00`: no event; no pass exists for it (R86). -/
  | noEvent
  /-- `ev = 11`: never formed; no pass exists for it (R86). -/
  | eventNeverFormed
  deriving DecidableEq, Repr

/-- The OVF row of the dispatch table (R87): every one of the 16 pairs of `st` and `ap` has a rule. -/
def decodeOvf (st : BitVec 3) (ap : Bool) : Instr :=
  match st.toNat, ap with
  | 0, false => .ovfAwaitAddressByte
  | 0, true => .ovfAwaitAddressAck
  | 1, false => .ovfAwaitRegisterPointerByte
  | 1, true => .ovfAwaitRegisterPointerAck
  | 2, false => .ovfWriteDataByte
  | 2, true => .ovfWriteDataAck
  | 3, false => .ovfPostWriteAckByte
  | 3, true => .ovfPostWriteAckAck
  | 4, false => .ovfReadDataPreByte
  | 4, true => .ovfReadDataPreAck
  | 5, false => .ovfReadAckPollByte
  | 5, true => .ovfReadAckPollAck
  | _, ap => .ovfReservedState st ap

/-- A dispatch key: `ev` in bits 5..4, `st` in bits 3..1, `ap` in bit 0 (R86). -/
def decodeEvent (key : BitVec 6) : Except DecodeError Instr :=
  match (key.extractLsb' 4 2).toNat with
  | 1 => .ok (.start (key.extractLsb' 1 3) (key.getLsbD 0))
  | 2 => .ok (decodeOvf (key.extractLsb' 1 3) (key.getLsbD 0))
  | 0 => .error .noEvent
  | _ => .error .eventNeverFormed

/-- An application command: `dir` in bit 3, `sgn` in bit 2, `wcode` in bits 1..0 (R88, R89). -/
def decodeCommand (cmd : BitVec 4) (idx : Byte) (wdata : Word) : Instr :=
  match cmd.getLsbD 3, cmd.getLsbD 2, (cmd.extractLsb' 0 2).toNat with
  | false, false, 0 => .getU8 idx
  | false, false, 1 => .getU16 idx
  | false, false, 2 => .getU32 idx
  | false, true, 0 => .getS8 idx
  | false, true, 1 => .getS16 idx
  | false, true, 2 => .getS32 idx
  | true, false, 0 => .setU8 idx wdata
  | true, false, 1 => .setU16 idx wdata
  | true, false, 2 => .setU32 idx wdata
  | true, true, 0 => .setS8 idx wdata
  | true, true, 1 => .setS16 idx wdata
  | true, true, 2 => .setS32 idx wdata
  | dir, sgn, _ => .reservedWidth dir sgn idx wdata

/-- A bus action code (R85): `0b` CLOCK(b), `10` START, `11` STOP. -/
def decodeAction (code : BitVec 2) : Instr :=
  match code.getLsbD 1, code.getLsbD 0 with
  | false, b => .clock b
  | true, false => .startCond
  | true, true => .stopCond

/-- An address byte (R80): the address in bits 7..1, R/W in bit 0. -/
def decodeWire (byte : Byte) : Instr :=
  match byte.getLsbD 0 with
  | false => .addrW (byte.extractLsb' 1 7)
  | true => .addrR (byte.extractLsb' 1 7)

/-- The decoder. Only a dispatch key can be rejected (R92). -/
def decode : Encoded → Except DecodeError Instr
  | .event key => decodeEvent key
  | .command cmd idx wdata => .ok (decodeCommand cmd idx wdata)
  | .action code => .ok (decodeAction code)
  | .wire byte => .ok (decodeWire byte)

/-- An OVF dispatch key, written from R86. -/
def ovfKey (st : BitVec 3) (ap : Bool) : BitVec 6 := 0b10#2 ++ st ++ BitVec.ofBool ap

/-- A START dispatch key, written from R86. -/
def startKey (st : BitVec 3) (ap : Bool) : BitVec 6 := 0b01#2 ++ st ++ BitVec.ofBool ap

/-- The encoder: the words of a well-formed instruction, from R80, R85, R87 and R89. A GET has no `wdata` operand
(R91), so its `wdata` is 0 (log 16). -/
def encode : Instr → Encoded
  | .start st ap => .event (startKey st ap)
  | .ovfAwaitAddressByte => .event 0b100000#6
  | .ovfAwaitAddressAck => .event 0b100001#6
  | .ovfAwaitRegisterPointerByte => .event 0b100010#6
  | .ovfAwaitRegisterPointerAck => .event 0b100011#6
  | .ovfWriteDataByte => .event 0b100100#6
  | .ovfWriteDataAck => .event 0b100101#6
  | .ovfPostWriteAckByte => .event 0b100110#6
  | .ovfPostWriteAckAck => .event 0b100111#6
  | .ovfReadDataPreAck => .event 0b101001#6
  | .ovfReadDataPreByte => .event 0b101000#6
  | .ovfReadAckPollByte => .event 0b101010#6
  | .ovfReadAckPollAck => .event 0b101011#6
  | .ovfReservedState st ap => .event (ovfKey st ap)
  | .getU8 idx => .command 0b0000#4 idx 0
  | .getU16 idx => .command 0b0001#4 idx 0
  | .getU32 idx => .command 0b0010#4 idx 0
  | .getS8 idx => .command 0b0100#4 idx 0
  | .getS16 idx => .command 0b0101#4 idx 0
  | .getS32 idx => .command 0b0110#4 idx 0
  | .setU8 idx wdata => .command 0b1000#4 idx wdata
  | .setU16 idx wdata => .command 0b1001#4 idx wdata
  | .setU32 idx wdata => .command 0b1010#4 idx wdata
  | .setS8 idx wdata => .command 0b1100#4 idx wdata
  | .setS16 idx wdata => .command 0b1101#4 idx wdata
  | .setS32 idx wdata => .command 0b1110#4 idx wdata
  | .reservedWidth dir sgn idx wdata => .command (BitVec.ofBool dir ++ BitVec.ofBool sgn ++ 0b11#2) idx wdata
  | .clock b => .action (0b0#1 ++ BitVec.ofBool b)
  | .startCond => .action 0b10#2
  | .stopCond => .action 0b11#2
  | .addrW a => .wire (a ++ 0b0#1)
  | .addrR a => .wire (a ++ 0b1#1)

/-- The encoded step a word of the opcode table stands for, by its length in bits. A length of 2, 4 or 6 bits names the
space (R93). In a whole byte the spaces overlap, and the spec gives no mark that tells them apart: a byte below 0x10
is read as a command, one below 0x30 as a dispatch key, any other as a wire byte (DESIGN CHOICE, log 5). The operands
of a command are 0, since the table gives them no bits. -/
def tableWord (nbits w : Nat) : Option Encoded :=
  match nbits with
  | 2 => some (.action (BitVec.ofNat 2 w))
  | 4 => some (.command (BitVec.ofNat 4 w) 0 0)
  | 6 => some (.event (BitVec.ofNat 6 w))
  | 8 =>
    if w < 0x10 then some (.command (BitVec.ofNat 4 w) 0 0)
    else if w < 0x30 then some (.event (BitVec.ofNat 6 w))
    else if w < 0x100 then some (.wire (BitVec.ofNat 8 w))
    else none
  | _ => none

/-- The instruction the decoder reads from a word of the opcode table (log 5). -/
def decodeTableWord (nbits w : Nat) : Option Instr :=
  match tableWord nbits w with
  | none => none
  | some e =>
    match decode e with
    | .ok i => some i
    | .error _ => none

end Sys2Proof
end

