-- ==== Sys2Proof/Machine/State.lean ====
section
/-!
DEFINITION. The state of the block as plain data (10_state.md), the reasons a step can stop, and the state after reset
(70_reset_and_hazards.md R230).
-/

namespace Sys2Proof.Machine

/-- The bytes of the register file that differ from RF_INIT, indices strictly rising (10_state.md R23, log 15). -/
abbrev Memory := List Host.Cell

/-- One turn of an agent or of the outside: what `State.inputs` lists (log 1). -/
inductive Input where
  /-- The bus master takes the action with this code (30_encoding.md R85). -/
  | bus (code : BitVec 2)
  /-- The bus master sends this address byte (30_encoding.md R80, log 4). -/
  | wire (byte : Byte)
  /-- The application requests one operation (41_register_file_access.md R151). -/
  | app (cmd : BitVec 4) (idx : Byte) (wdata : Word)
  /-- The protocol engine's turn: it takes its pass if one is enabled (60_exceptions.md R204). -/
  | engine
  /-- The level of the reset input becomes `level` (70_reset_and_hazards.md R231). -/
  | rst (level : Bool)
  /-- The level of the configuration input becomes `a` (10_state.md R24). -/
  | cfg (a : BitVec 7)
  deriving DecidableEq, Repr

/-- The state. The fields from `st` to `stopFlag` are the architectural state of 10_state.md, in its order. -/
structure State where
  /-- The instance's parameters; no step writes them (log 8). -/
  params : Params
  /-- Transaction state, a 3-bit code (R20). -/
  st : BitVec 3
  /-- Register pointer (R21). -/
  ptr : Byte
  /-- AckPending (R22). -/
  ap : Bool
  /-- Register file (R23). -/
  rf : Memory
  /-- Slave address (R24). -/
  sa : BitVec 7
  /-- Shift register (R25). -/
  sr : Byte
  /-- Bit counter (R26). -/
  cnt : BitVec 4
  /-- Overflow event attached (R27). -/
  ovfEn : Bool
  /-- SDA output enable (R28). -/
  sdaOe : Bool
  /-- A start event is pending (R29). -/
  startPend : Bool
  /-- An overflow event is pending (R30). -/
  ovfPend : Bool
  /-- A STOP has been seen since the last START (R31). -/
  stopFlag : Bool
  /-- Result data of the last application operation (41_register_file_access.md R151). -/
  rdata : Word
  /-- Error code of the last application operation (41_register_file_access.md R151, R166). -/
  err : BitVec 2
  /-- The SDA level the last CLOCK returned to the master (42_bus_and_bit_counter.md R183, log 11). -/
  line : Bool
  /-- Level of the reset input (70_reset_and_hazards.md R231, log 12). -/
  rst : Bool
  /-- Level of the configuration input `cfg_addr[6:0]` (10_state.md R24, log 13). -/
  cfgAddr : BitVec 7
  /-- The turns to come, oldest first: the model's own field (log 1). -/
  inputs : List Input
  deriving DecidableEq, Repr

/-- Why the machine stops. The spec has no fault (60_exceptions.md R200); this one exists only in states that no run
from reset reaches (log 14). -/
inductive Fault where
  /-- Raised by the raw byte port (OVF.WRITE_DATA.BYTE, OVF.READ_DATA_PRE.ACK, and ADDR.W and ADDR.R when they run one of
  these passes) when `ptr` is not below N: no such byte exists. Safe: `ptr < N` in every reachable state (R36). -/
  | indexOutsideFile (i : Nat)
  deriving DecidableEq, Repr

/-- Why a step does not exist in a state (00_scope.md R13). All safe: nothing is claimed of such a step (log 3). -/
inductive Refusal where
  /-- Raised by an arm of `exec` whose instruction has no meaning yet. Safe. No arm uses it now. -/
  | notModelled (mnemonic : String)
  /-- Raised by every instruction while `rst` is asserted (70_reset_and_hazards.md R231). Safe. -/
  | inReset
  /-- Raised by CLOCK, START_COND, STOP_COND, ADDR.W and ADDR.R while SCL is held (42_bus_and_bit_counter.md R185). Safe. -/
  | sclHeld
  /-- Raised by START_COND and STOP_COND while the block pulls SDA (42_bus_and_bit_counter.md R188). Safe. -/
  | sdaHeld
  /-- Raised by a pass whose event is not pending, or whose key is not the state's (40_protocol_fsm.md R115, R116). Safe. -/
  | passNotEnabled
  /-- Raised by `step` on an encoded step that decodes to no instruction (30_encoding.md R86). Safe; the engine never
  forms such a key. -/
  | undecodable (why : DecodeError)
  deriving DecidableEq, Repr

/-- The outcome of a step of this machine. -/
abbrev Result := Host.Outcome State Fault Refusal

/-- The state right after `rst` is released on the instance `p` with `cfg_addr` at `cfg` and the turns `turns` to come
(70_reset_and_hazards.md R230). `rdata`, `err` and `line` have no reset value in the spec: DESIGN CHOICE 0, 0 and 1
(logs 10 and 11). -/
def State.resetOf (p : Params) (cfg : BitVec 7) (turns : List Input) : State :=
  { params := p, st := 0, ptr := 0, ap := false, rf := [], sa := cfg, sr := 0, cnt := 8, ovfEn := false,
    sdaOe := false, startPend := false, ovfPend := false, stopFlag := false, rdata := 0, err := 0, line := true,
    rst := false, cfgAddr := cfg, inputs := turns }

/-- The machine right after reset (70_reset_and_hazards.md R230), on the instance `Config.params` at the address
`Config.slaveAddr`, with no turn listed (log 6). -/
def State.reset : State := State.resetOf Config.params Config.slaveAddr []

end Sys2Proof.Machine
end

