-- ==== Sys2Proof/Machine/Flags.lean ====
section
/-!
DEFINITION. Every one-bit value the rules compute: the line drivers (10_state.md R32), the sampled line and the counter's
overflow (42_bus_and_bit_counter.md R183, R184), and the conditions under which a step is enabled.
-/

namespace Sys2Proof.Machine

/-- `sda_pull = sda_oe AND NOT sr[7]`: the block pulls SDA low (10_state.md R32). -/
def State.sdaPull (s : State) : Bool := s.sdaOe && !s.sr.getLsbD 7

/-- `scl_pull = start_pend OR ovf_pend`: the block holds SCL low, which is clock stretching (10_state.md R32). -/
def State.sclPull (s : State) : Bool := s.startPend || s.ovfPend

/-- The SDA level during an SCL pulse, the wired-AND of the master's `b` and the block's pull (42_bus_and_bit_counter.md
R180, R183). -/
def State.sdaLine (s : State) (b : Bool) : Bool := b && !s.sdaPull

/-- A CLOCK counts when the overflow event is attached and `cnt > 0` (42_bus_and_bit_counter.md R184). -/
def State.counting (s : State) : Bool := s.ovfEn && decide (0 < s.cnt.toNat)

/-- `cnt` after a CLOCK (42_bus_and_bit_counter.md R183). -/
def State.cntAfterClock (s : State) : BitVec 4 := if s.counting then s.cnt - 1 else s.cnt

/-- `ovf_pend` after a CLOCK: a decrement that reaches 0 raises the event (42_bus_and_bit_counter.md R183, R184). -/
def State.ovfAfterClock (s : State) : Bool := s.ovfPend || (s.counting && s.cntAfterClock == 0)

/-- The engine has a step: an event is pending, and `rst` is not asserted (60_exceptions.md R204,
70_reset_and_hazards.md R231). -/
def State.engineReady (s : State) : Bool := s.sclPull && !s.rst

/-- An OVF pass with this `st` and `ap` in its key is the one the engine takes (40_protocol_fsm.md R115). -/
def State.ovfSelected (s : State) (st : BitVec 3) (ap : Bool) : Bool :=
  s.ovfPend && !s.startPend && s.st == st && s.ap == ap

end Sys2Proof.Machine
end

