-- ==== Sys2Proof/Machine/Ops.lean ====
section
/-!
DEFINITION. The named operations over memory and registers. The register file's two ports stand on `Memory.read` and
`Memory.write`; the macros of 40_protocol_fsm.md R110 to R114 are the engine's writes; `startFrame` and `ovfFrame` are
entry to and exit from a pass, which the block has in place of taking an exception and returning from one
(60_exceptions.md R207, R208).
-/

namespace Sys2Proof.Machine

/-! ### The codes of the transaction states (10_state.md R20) -/

/-- AWAIT_ADDRESS: the next byte is an address byte, or the block is idle. -/
def awaitAddress : BitVec 3 := 0
/-- AWAIT_REGISTER_POINTER: the next byte is the register pointer. -/
def awaitRegisterPointer : BitVec 3 := 1
/-- WRITE_DATA: the next byte is the first data byte. -/
def writeData : BitVec 3 := 2
/-- POST_WRITE_ACK: a data byte has been stored; another may follow. -/
def postWriteAck : BitVec 3 := 3
/-- READ_DATA_PRE: the next OVF loads the byte to send. -/
def readDataPre : BitVec 3 := 4
/-- READ_ACK_POLL: a byte is being sent, or its ACK/NACK bit is awaited. -/
def readAckPoll : BitVec 3 := 5

/-! ### The register file -/

/-- What an unlisted index reads as: RF_INIT (00_scope.md R8, 10_state.md R23). -/
def Memory.unlisted (p : Params) (i : Nat) : Byte := p.rfInit.getD i 0

/-- The byte listed at index `i`, if there is one. -/
def Memory.lookup : Memory → Nat → Option Byte
  | [], _ => none
  | c :: m, i => if c.1 = i then some c.2 else Memory.lookup m i

/-- The byte at index `i`. -/
def Memory.read (p : Params) (m : Memory) (i : Nat) : Byte := (Memory.lookup m i).getD (Memory.unlisted p i)

/-- The list with byte `b` at index `i`: a byte equal to what the unlisted index reads as is not listed. -/
def Memory.write (p : Params) (m : Memory) (i : Nat) (b : Byte) : Memory :=
  match m with
  | [] => if b = Memory.unlisted p i then [] else [(i, b)]
  | c :: m =>
    if i < c.1 then (if b = Memory.unlisted p i then c :: m else (i, b) :: c :: m)
    else if i = c.1 then (if b = Memory.unlisted p i then m else (i, b) :: m)
    else c :: Memory.write p m i b

/-- The canonical form: indices strictly rising and below N, no byte equal to RF_INIT's. -/
def Memory.wf (p : Params) (m : Memory) : Bool :=
  decide (m.Pairwise (fun c d => c.1 < d.1)) && m.all (fun c => decide (c.1 < p.n) && c.2 != Memory.unlisted p c.1)

/-- N (00_scope.md R6). -/
def State.n (s : State) : Nat := s.params.n

/-- `rf[i]`: read one byte (00_scope.md R12, 41_register_file_access.md R150). -/
def State.rfByte (s : State) (i : Nat) : Byte := Memory.read s.params s.rf i

/-- `rf[i] <- b`: write one byte (00_scope.md R12, 41_register_file_access.md R150). -/
def State.setRfByte (s : State) (i : Nat) (b : Byte) : State := { s with rf := Memory.write s.params s.rf i b }

/-! ### The macros of the protocol engine -/

/-- `go_idle` (40_protocol_fsm.md R110). -/
def State.goIdle (s : State) : State :=
  { s with st := awaitAddress, ap := false, sdaOe := false, ovfEn := false, cnt := 8 }

/-- `arm_ack` (40_protocol_fsm.md R111). -/
def State.armAck (s : State) : State := { s with sr := 0, sdaOe := true, cnt := 1, ap := true }

/-- `end_ack` (40_protocol_fsm.md R112). -/
def State.endAck (s : State) : State := { s with sdaOe := false, cnt := 8, ap := false }

/-- The writes of `load_tx` once `rf[ptr]` is read as `b` (40_protocol_fsm.md R113). -/
def State.loadTx (s : State) (b : Byte) : State :=
  { s with sr := b, sdaOe := true, st := readAckPoll, cnt := 8, ap := false }

/-- `p mod N` as a pointer (40_protocol_fsm.md R119, 20_memory.md R53). -/
def wrapPtr (n p : Nat) : Byte := BitVec.ofNat 8 (p % n)

/-- `inc(ptr) = (ptr + 1) mod N` (40_protocol_fsm.md R114). -/
def State.incPtr (s : State) : Byte := wrapPtr s.n (s.ptr.toNat + 1)

/-! ### Sequencing -/

/-- `f` on the next state; a stop stays a stop. -/
def andThen (o : Result) (f : State → Result) : Result :=
  match o with
  | .next s => f s
  | .fault r => .fault r
  | .refused r => .refused r

/-! ### The raw byte port of the engine (41_register_file_access.md R150) -/

/-- Go on with `rf[ptr]`. An index not below N names no byte (20_memory.md R50; log 14). -/
def rawRead (s : State) (k : Byte → Result) : Result :=
  if s.ptr.toNat < s.n then k (s.rfByte s.ptr.toNat) else .fault (.indexOutsideFile s.ptr.toNat)

/-- `rf[ptr] <- b`, then go on. An index not below N names no byte (20_memory.md R50; log 14). -/
def rawWrite (s : State) (b : Byte) (k : State → Result) : Result :=
  if s.ptr.toNat < s.n then k (s.setRfByte s.ptr.toNat b) else .fault (.indexOutsideFile s.ptr.toNat)

/-! ### Entry to and exit from a pass -/

/-- A step of an agent: none is taken while `rst` is asserted (70_reset_and_hazards.md R231). -/
def running (s : State) (k : Result) : Result := if s.rst then .refused .inReset else k

/-- The frame of the START pass: enabled when `start_pend = 1`; it clears both pending flags (40_protocol_fsm.md R116).
Nothing is saved at entry and nothing is restored at exit (60_exceptions.md R207, R208). -/
def startFrame (s : State) (body : State → Result) : Result :=
  running s (if s.startPend then body { s with startPend := false, ovfPend := false } else .refused .passNotEnabled)

/-- The frame of an OVF pass: enabled when its key is the one the engine forms, exit `ovf_pend <- 0` (40_protocol_fsm.md
R115; 60_exceptions.md R207, R208). -/
def ovfFrame (st : BitVec 3) (ap : Bool) (s : State) (body : State → Result) : Result :=
  running s
    (if s.ovfSelected st ap then andThen (body s) (fun t => .next { t with ovfPend := false })
     else .refused .passNotEnabled)

/-! ### Frames of the other agents' steps -/

/-- A bus action is enabled when SCL is free (42_bus_and_bit_counter.md R185). -/
def busFrame (s : State) (k : Result) : Result := running s (if s.sclPull then .refused .sclHeld else k)

/-- START and STOP also need SDA free of the block's pull (42_bus_and_bit_counter.md R188). -/
def conditionFrame (s : State) (k : Result) : Result :=
  busFrame s (if s.sdaPull then .refused .sdaHeld else k)

/-- The results of an application operation (41_register_file_access.md R151). -/
def State.answer (s : State) (data : Word) (code : BitVec 2) : State := { s with rdata := data, err := code }

/-- The bound check of an application operation of `w` bytes at `idx`, over the naturals: out of bounds answers
`(0, 1)` and writes nothing else (41_register_file_access.md R152). -/
def appFrame (s : State) (idx : Byte) (w : Nat) (t : State) : Result :=
  running s (.next (if idx.toNat + w > s.n then s.answer 0 1 else t))

end Sys2Proof.Machine
end

