-- ==== Sys2Proof/Machine/Operands.lean ====
section
/-!
DEFINITION. Operand assembly (30_encoding.md R90, R91): the fields of a received byte, MemRead and MemWrite of the three
widths (00_scope.md R12), the extension of a GET's value, the bits of a wire byte in the order they are sent.
-/

namespace Sys2Proof.Machine

/-! ### The received byte -/

/-- `a = sr[7:1]` (30_encoding.md R90). -/
def State.rxAddr (s : State) : BitVec 7 := s.sr.extractLsb' 1 7

/-- `rw = sr[0]` (30_encoding.md R90). -/
def State.rxRw (s : State) : Bool := s.sr.getLsbD 0

/-- `sr[6:0] ‖ line`: shift in at bit 0 (42_bus_and_bit_counter.md R183). -/
def shiftIn (sr : Byte) (line : Bool) : Byte := sr.extractLsb' 0 7 ++ BitVec.ofBool line

/-- The bits of a byte, most significant first (20_memory.md R56, 30_encoding.md R94). -/
def bitsMsbFirst (x : Byte) : List Bool :=
  [x.getLsbD 7, x.getLsbD 6, x.getLsbD 5, x.getLsbD 4, x.getLsbD 3, x.getLsbD 2, x.getLsbD 1, x.getLsbD 0]

/-! ### MemRead (00_scope.md R12): big-endian -/

/-- `MemRead(i, 1)`. -/
def State.memRead8 (s : State) (i : Nat) : BitVec 8 := s.rfByte i

/-- `MemRead(i, 2) = rf[i] ‖ rf[i+1]`. -/
def State.memRead16 (s : State) (i : Nat) : BitVec 16 := s.rfByte i ++ s.rfByte (i + 1)

/-- `MemRead(i, 4) = rf[i] ‖ rf[i+1] ‖ rf[i+2] ‖ rf[i+3]`. -/
def State.memRead32 (s : State) (i : Nat) : BitVec 32 :=
  s.rfByte i ++ s.rfByte (i + 1) ++ s.rfByte (i + 2) ++ s.rfByte (i + 3)

/-! ### MemWrite (00_scope.md R12): big-endian -/

/-- `MemWrite(i, 1, v)`. -/
def State.memWrite8 (s : State) (i : Nat) (v : BitVec 8) : State := s.setRfByte i v

/-- `MemWrite(i, 2, v)`: `rf[i] <- v[15:8]; rf[i+1] <- v[7:0]`. -/
def State.memWrite16 (s : State) (i : Nat) (v : BitVec 16) : State :=
  (s.setRfByte i (v.extractLsb' 8 8)).setRfByte (i + 1) (v.extractLsb' 0 8)

/-- `MemWrite(i, 4, v)`: `rf[i..i+3] <- v[31:24], v[23:16], v[15:8], v[7:0]`. -/
def State.memWrite32 (s : State) (i : Nat) (v : BitVec 32) : State :=
  (((s.setRfByte i (v.extractLsb' 24 8)).setRfByte (i + 1) (v.extractLsb' 16 8)).setRfByte (i + 2)
    (v.extractLsb' 8 8)).setRfByte (i + 3) (v.extractLsb' 0 8)

/-! ### Widths of application data -/

/-- `zext_32` (00_scope.md R11). -/
def zext32 {w : Nat} (v : BitVec w) : Word := v.setWidth 32

/-- `sext_32` (00_scope.md R11). -/
def sext32 {w : Nat} (v : BitVec w) : Word := v.signExtend 32

/-- `wdata[7:0]`: the upper bits are ignored (30_encoding.md R91). -/
def low8 (v : Word) : BitVec 8 := v.extractLsb' 0 8

/-- `wdata[15:0]`: the upper bits are ignored (30_encoding.md R91). -/
def low16 (v : Word) : BitVec 16 := v.extractLsb' 0 16

end Sys2Proof.Machine
end

