-- ==== Sys2Proof/Machine/Application.lean ====
section
/-!
DEFINITION. The typed operations of the application port (41_register_file_access.md). Each is one atomic step
(20_memory.md R61); a rejected one writes only the results.
-/

namespace Sys2Proof.Machine

/-- GET.U8 (R153). -/
def execGetU8 (idx : Byte) (s : State) : Result := appFrame s idx 1 (s.answer (zext32 (s.memRead8 idx.toNat)) 0)

/-- GET.U16 (R154). -/
def execGetU16 (idx : Byte) (s : State) : Result := appFrame s idx 2 (s.answer (zext32 (s.memRead16 idx.toNat)) 0)

/-- GET.U32 (R155). -/
def execGetU32 (idx : Byte) (s : State) : Result := appFrame s idx 4 (s.answer (s.memRead32 idx.toNat) 0)

/-- GET.S8 (R156). -/
def execGetS8 (idx : Byte) (s : State) : Result := appFrame s idx 1 (s.answer (sext32 (s.memRead8 idx.toNat)) 0)

/-- GET.S16 (R157). -/
def execGetS16 (idx : Byte) (s : State) : Result := appFrame s idx 2 (s.answer (sext32 (s.memRead16 idx.toNat)) 0)

/-- GET.S32 (R158): at 32 bits the extension is the identity. -/
def execGetS32 (idx : Byte) (s : State) : Result := appFrame s idx 4 (s.answer (s.memRead32 idx.toNat) 0)

/-- SET.U8 (R159). -/
def execSetU8 (idx : Byte) (wdata : Word) (s : State) : Result :=
  appFrame s idx 1 ((s.memWrite8 idx.toNat (low8 wdata)).answer 0 0)

/-- SET.U16 (R160). -/
def execSetU16 (idx : Byte) (wdata : Word) (s : State) : Result :=
  appFrame s idx 2 ((s.memWrite16 idx.toNat (low16 wdata)).answer 0 0)

/-- SET.U32 (R161). -/
def execSetU32 (idx : Byte) (wdata : Word) (s : State) : Result :=
  appFrame s idx 4 ((s.memWrite32 idx.toNat wdata).answer 0 0)

/-- SET.S8 (R162): the signedness bit does not change the byte written. -/
def execSetS8 (idx : Byte) (wdata : Word) (s : State) : Result :=
  appFrame s idx 1 ((s.memWrite8 idx.toNat (low8 wdata)).answer 0 0)

/-- SET.S16 (R163). -/
def execSetS16 (idx : Byte) (wdata : Word) (s : State) : Result :=
  appFrame s idx 2 ((s.memWrite16 idx.toNat (low16 wdata)).answer 0 0)

/-- SET.S32 (R164). -/
def execSetS32 (idx : Byte) (wdata : Word) (s : State) : Result :=
  appFrame s idx 4 ((s.memWrite32 idx.toNat wdata).answer 0 0)

/-- Reserved width (R165): rejected before the bound check, the operands ignored. -/
def execReservedWidth (_dir _sgn : Bool) (_idx : Byte) (_wdata : Word) (s : State) : Result :=
  running s (.next (s.answer 0 2))

end Sys2Proof.Machine
end

