-- ==== Sys2Proof/Machine/Bus.lean ====
section
/-!
DEFINITION. The bus master's actions (42_bus_and_bit_counter.md): CLOCK(b), START and STOP.
-/

namespace Sys2Proof.Machine

/-- The writes of CLOCK(b): sample, shift, count (R183). `line` keeps the level the action returns (log 11). -/
def State.clocked (s : State) (b : Bool) : State :=
  { s with line := s.sdaLine b, sr := shiftIn s.sr (s.sdaLine b), cnt := s.cntAfterClock, ovfPend := s.ovfAfterClock }

/-- CLOCK(b) (R183). -/
def execClock (b : Bool) (s : State) : Result := busFrame s (.next (s.clocked b))

/-- START condition (R186). -/
def execStartCond (s : State) : Result := conditionFrame s (.next { s with startPend := true, stopFlag := false })

/-- STOP condition (R187). -/
def execStopCond (s : State) : Result := conditionFrame s (.next { s with stopFlag := true })

end Sys2Proof.Machine
end

