-- ==== Sys2Proof/Machine/Passes.lean ====
section
/-!
DEFINITION. The event passes of the protocol engine (40_protocol_fsm.md): the START pass and the OVF passes of all 16
pairs of `st` and `ap`, and `enginePass`, the pass the dispatch table selects (30_encoding.md R87).
-/

namespace Sys2Proof.Machine

/-- START pass (R116): the same in every state; the key's `st` and `ap` bits are ignored (30_encoding.md R86). -/
def execStart (_st : BitVec 3) (_ap : Bool) (s : State) : Result :=
  startFrame s (fun s => .next { s with st := awaitAddress, ap := false, sdaOe := false, cnt := 8, ovfEn := true })

/-- OVF.AWAIT_ADDRESS.BYTE (R117): the address matcher. `rw` is read before `arm_ack` clears `sr`. -/
def execOvfAwaitAddressByte (s : State) : Result :=
  ovfFrame awaitAddress false s (fun s =>
    .next (if s.rxAddr = s.sa then { s.armAck with st := if s.rxRw then readDataPre else awaitRegisterPointer } else s.goIdle))

/-- OVF.AWAIT_ADDRESS.ACK (R118): fail-safe. -/
def execOvfAwaitAddressAck (s : State) : Result := ovfFrame awaitAddress true s (fun s => .next s.goIdle)

/-- OVF.AWAIT_REGISTER_POINTER.BYTE (R119): the received byte sets the pointer. -/
def execOvfAwaitRegisterPointerByte (s : State) : Result :=
  ovfFrame awaitRegisterPointer false s (fun s => .next { { s with ptr := wrapPtr s.n s.sr.toNat }.armAck with st := writeData })

/-- OVF.AWAIT_REGISTER_POINTER.ACK (R120). -/
def execOvfAwaitRegisterPointerAck (s : State) : Result := ovfFrame awaitRegisterPointer true s (fun s => .next s.endAck)

/-- OVF.WRITE_DATA.BYTE (R121): store the first data byte. -/
def execOvfWriteDataByte (s : State) : Result :=
  ovfFrame writeData false s (fun s => rawWrite s s.sr (fun s => .next { s.armAck with st := postWriteAck }))

/-- OVF.WRITE_DATA.ACK (R122). -/
def execOvfWriteDataAck (s : State) : Result := ovfFrame writeData true s (fun s => .next s.endAck)

/-- OVF.POST_WRITE_ACK.BYTE (R123): the STOP branch, or a further data byte at the next index. -/
def execOvfPostWriteAckByte (s : State) : Result :=
  ovfFrame postWriteAck false s (fun s =>
    if s.stopFlag then .next s.goIdle
    else rawWrite { s with ptr := s.incPtr } s.sr (fun s => .next { s.armAck with st := postWriteAck }))

/-- OVF.POST_WRITE_ACK.ACK (R124). -/
def execOvfPostWriteAckAck (s : State) : Result := ovfFrame postWriteAck true s (fun s => .next s.endAck)

/-- OVF.READ_DATA_PRE.ACK (R125): load the first byte of a read. -/
def execOvfReadDataPreAck (s : State) : Result := ovfFrame readDataPre true s (fun s => rawRead s (fun b => .next (s.loadTx b)))

/-- OVF.READ_DATA_PRE.BYTE (R126): fail-safe. -/
def execOvfReadDataPreByte (s : State) : Result := ovfFrame readDataPre false s (fun s => .next s.goIdle)

/-- OVF.READ_ACK_POLL.BYTE (R127): the byte has been sent; open the master's ACK window. -/
def execOvfReadAckPollByte (s : State) : Result :=
  ovfFrame readAckPoll false s (fun s => .next { s with sdaOe := false, cnt := 1, ap := true })

/-- OVF.READ_ACK_POLL.ACK (R128): on the master's ACK, load the byte at the next index; on a NACK, end. -/
def execOvfReadAckPollAck (s : State) : Result :=
  ovfFrame readAckPoll true s (fun s =>
    if s.sr.getLsbD 0 then .next s.goIdle
    else rawRead { s with ptr := s.incPtr } (fun b => .next ({ s with ptr := s.incPtr }.loadTx b)))

/-- OVF.RESERVED_STATE (R129): fail-safe in the codes 6 and 7. -/
def execOvfReservedState (st : BitVec 3) (ap : Bool) (s : State) : Result :=
  ovfFrame st ap s (fun s => if reservedCode st then .next s.goIdle else .refused .passNotEnabled)

/-- The one pass the engine takes: a pending START first (60_exceptions.md R205), else the OVF row of the dispatch table
(30_encoding.md R87). -/
def enginePass (s : State) : Result :=
  if s.startPend then execStart s.st s.ap s
  else
    match s.st.toNat, s.ap with
    | 0, false => execOvfAwaitAddressByte s
    | 0, true => execOvfAwaitAddressAck s
    | 1, false => execOvfAwaitRegisterPointerByte s
    | 1, true => execOvfAwaitRegisterPointerAck s
    | 2, false => execOvfWriteDataByte s
    | 2, true => execOvfWriteDataAck s
    | 3, false => execOvfPostWriteAckByte s
    | 3, true => execOvfPostWriteAckAck s
    | 4, false => execOvfReadDataPreByte s
    | 4, true => execOvfReadDataPreAck s
    | 5, false => execOvfReadAckPollByte s
    | 5, true => execOvfReadAckPollAck s
    | _, ap => execOvfReservedState s.st ap s

end Sys2Proof.Machine
end

