-- ==== Sys2Proof/Machine/Wire.lean ====
section
/-!
DEFINITION. A wire address byte (30_encoding.md R80): the master sends its 8 bits, most significant first, one CLOCK each
(R94 token `W`), and after each CLOCK a pending event is handled (R96). In the address phase the last of these is the
pass of the address matcher (40_protocol_fsm.md R117). It is a run of atomic steps taken as one (log 4).
-/

namespace Sys2Proof.Machine

/-- Handle the pending event, if there is one (R96). -/
def settle (s : State) : Result := if s.sclPull then enginePass s else .next s

/-- One CLOCK and the pass it calls for. -/
def clockAndSettle (b : Bool) (s : State) : Result := andThen (execClock b s) settle

/-- CLOCKs with these levels in order, each followed by the pass it calls for. -/
def sendBits : List Bool → State → Result
  | [], s => .next s
  | b :: bs, s => andThen (clockAndSettle b s) (sendBits bs)

/-- ADDR.W (R80, R117): address `a` and R/W = 0. -/
def execAddrW (a : BitVec 7) (s : State) : Result := sendBits (bitsMsbFirst (a ++ 0b0#1)) s

/-- ADDR.R (R80, R117): address `a` and R/W = 1. -/
def execAddrR (a : BitVec 7) (s : State) : Result := sendBits (bitsMsbFirst (a ++ 0b1#1)) s

end Sys2Proof.Machine
end

