-- ==== Sys2Proof/Machine/Dispatch.lean ====
section
/-!
DEFINITION. One arm per constructor of `Instr`: its meaning.
-/

namespace Sys2Proof.Machine

/-- What an instruction does in a state. -/
def exec (i : Instr) (s : State) : Host.Outcome State Fault Refusal :=
  match i with
  | .start st ap => Sys2Proof.Machine.execStart st ap s
  | .ovfAwaitAddressByte => Sys2Proof.Machine.execOvfAwaitAddressByte s
  | .ovfAwaitAddressAck => Sys2Proof.Machine.execOvfAwaitAddressAck s
  | .ovfAwaitRegisterPointerByte => Sys2Proof.Machine.execOvfAwaitRegisterPointerByte s
  | .ovfAwaitRegisterPointerAck => Sys2Proof.Machine.execOvfAwaitRegisterPointerAck s
  | .ovfWriteDataByte => Sys2Proof.Machine.execOvfWriteDataByte s
  | .ovfWriteDataAck => Sys2Proof.Machine.execOvfWriteDataAck s
  | .ovfPostWriteAckByte => Sys2Proof.Machine.execOvfPostWriteAckByte s
  | .ovfPostWriteAckAck => Sys2Proof.Machine.execOvfPostWriteAckAck s
  | .ovfReadDataPreAck => Sys2Proof.Machine.execOvfReadDataPreAck s
  | .ovfReadDataPreByte => Sys2Proof.Machine.execOvfReadDataPreByte s
  | .ovfReadAckPollByte => Sys2Proof.Machine.execOvfReadAckPollByte s
  | .ovfReadAckPollAck => Sys2Proof.Machine.execOvfReadAckPollAck s
  | .ovfReservedState st ap => Sys2Proof.Machine.execOvfReservedState st ap s
  | .getU8 idx => Sys2Proof.Machine.execGetU8 idx s
  | .getU16 idx => Sys2Proof.Machine.execGetU16 idx s
  | .getU32 idx => Sys2Proof.Machine.execGetU32 idx s
  | .getS8 idx => Sys2Proof.Machine.execGetS8 idx s
  | .getS16 idx => Sys2Proof.Machine.execGetS16 idx s
  | .getS32 idx => Sys2Proof.Machine.execGetS32 idx s
  | .setU8 idx wdata => Sys2Proof.Machine.execSetU8 idx wdata s
  | .setU16 idx wdata => Sys2Proof.Machine.execSetU16 idx wdata s
  | .setU32 idx wdata => Sys2Proof.Machine.execSetU32 idx wdata s
  | .setS8 idx wdata => Sys2Proof.Machine.execSetS8 idx wdata s
  | .setS16 idx wdata => Sys2Proof.Machine.execSetS16 idx wdata s
  | .setS32 idx wdata => Sys2Proof.Machine.execSetS32 idx wdata s
  | .reservedWidth dir sgn idx wdata => Sys2Proof.Machine.execReservedWidth dir sgn idx wdata s
  | .clock b => Sys2Proof.Machine.execClock b s
  | .startCond => Sys2Proof.Machine.execStartCond s
  | .stopCond => Sys2Proof.Machine.execStopCond s
  | .addrW a => Sys2Proof.Machine.execAddrW a s
  | .addrR a => Sys2Proof.Machine.execAddrR a s

end Sys2Proof.Machine
end

