-- ==== Sys2Proof/Machine/Fetch.lean ====
section
/-!
DEFINITION. What the next step is. The block fetches no instructions (10_state.md R33): a step is an agent's, and
`State.inputs` says whose turn it is (log 1). The engine forms its own key from the state (30_encoding.md R86).
-/

namespace Sys2Proof.Machine

/-- The dispatch key the engine forms: START is taken before OVF (30_encoding.md R86, 60_exceptions.md R205). -/
def State.key (s : State) : BitVec 6 := if s.startPend then startKey s.st s.ap else ovfKey s.st s.ap

/-- What `fetch` answers. -/
inductive Fetched where
  /-- An agent takes this encoded step, in this state. -/
  | code (e : Encoded) (s : State)
  /-- No agent takes a step; this is the state after it. -/
  | quiet (s : State)
  deriving DecidableEq, Repr

/-- The release of `rst` (70_reset_and_hazards.md R231): the state of R230, whatever stood before it. -/
def State.released (s : State) : State := State.resetOf s.params s.cfgAddr s.inputs

/-- The level of `rst` becomes `level`: a release is a change from asserted to not asserted (R231, log 12). -/
def State.driveRst (s : State) (level : Bool) : State :=
  match level, s.rst with
  | true, _ => { s with rst := true }
  | false, true => s.released
  | false, false => s

/-- A turn of the bus master: while an event is pending the master has to wait, so the engine takes its pass and the turn
stays at the head (42_bus_and_bit_counter.md R185, 30_encoding.md R96, log 2). -/
def busTurn (s : State) (e : Encoded) (rest : List Input) : Fetched :=
  if s.engineReady then .code (.event s.key) s else .code e { s with inputs := rest }

/-- The next step. An application's turn may come before the pass of a pending event or after it (20_memory.md R64): the
list says which, by the engine's own turn. In a transcript the pass comes first (30_encoding.md R96, `schedule`). With no
turn left, the engine takes its pass if one is enabled (70_reset_and_hazards.md R251), and otherwise the block keeps its
state and waits (60_exceptions.md R204, R212). -/
def fetch (s : State) : Fetched :=
  match s.inputs with
  | [] => if s.engineReady then .code (.event s.key) s else .quiet s
  | .bus c :: rest => busTurn s (.action c) rest
  | .wire b :: rest => busTurn s (.wire b) rest
  | .app cmd idx wdata :: rest => .code (.command cmd idx wdata) { s with inputs := rest }
  | .engine :: rest =>
    if s.engineReady then .code (.event s.key) { s with inputs := rest } else .quiet { s with inputs := rest }
  | .rst level :: rest => .quiet ({ s with inputs := rest }.driveRst level)
  | .cfg a :: rest => .quiet { s with inputs := rest, cfgAddr := a }

/-- The state in which this encoded step is the next one (log 6). The turn is put at the head of the list; for a bus
turn no event is pending, and for a key the event and the pair (`st`, `ap`) are the key's. -/
def State.placed (s : State) (e : Encoded) : State :=
  match e with
  | .event key =>
    { s with rst := false, startPend := key.getLsbD 4, ovfPend := key.getLsbD 5, st := key.extractLsb' 1 3,
             ap := key.getLsbD 0, inputs := .engine :: s.inputs }
  | .command cmd idx wdata => { s with rst := false, inputs := .app cmd idx wdata :: s.inputs }
  | .action c => { s with rst := false, startPend := false, ovfPend := false, inputs := .bus c :: s.inputs }
  | .wire b => { s with rst := false, startPend := false, ovfPend := false, inputs := .wire b :: s.inputs }

end Sys2Proof.Machine
end

