-- ==== Sys2Proof/Machine/Step.lean ====
section
/-!
DEFINITION. One step of the machine: the step `fetch` selects, decoded and executed.
-/

namespace Sys2Proof.Machine

/-- One step (20_memory.md R60). -/
def step (s : State) : Host.Outcome State Fault Refusal :=
  match fetch s with
  | .quiet t => .next t
  | .code e t =>
    match decode e with
    | .ok i => exec i t
    | .error why => .refused (.undecodable why)

/-- The state in which the next step runs the instruction this word of the opcode table stands for (logs 5 and 6); a word
that stands for none leaves the state as it is. -/
def State.withFetchWord (s : State) (nbits w : Nat) : State :=
  match tableWord nbits w with
  | some e => s.placed e
  | none => s

end Sys2Proof.Machine
end

