-- ==== Sys2Proof/Machine/Transcript.lean ====
section
/-!
DEFINITION. Transcripts (30_encoding.md R94, R95): each bus token stands for a fixed sequence of bus action codes (R85), each
application token for one command (R89). The engine's passes are not written in a transcript; `schedule` puts them where
R96 has them (log 2).
-/

namespace Sys2Proof.Machine

/-- The action code of CLOCK(b) (R85). -/
def clockCode (b : Bool) : BitVec 2 := 0b0#1 ++ BitVec.ofBool b

/-- `S`: a START (R94). -/
def tokS : List (BitVec 2) := [0b10#2]

/-- `P`: a STOP (R94). -/
def tokP : List (BitVec 2) := [0b11#2]

/-- `W xx`: 8 CLOCKs with bits 7..0 of the byte in that order (R94). -/
def tokW (x : Byte) : List (BitVec 2) := (bitsMsbFirst x).map clockCode

/-- `K`: CLOCK(1), the master reads the ACK bit (R94). -/
def tokK : List (BitVec 2) := [clockCode true]

/-- `R`: 8 CLOCK(1), the master reads a byte (R94). -/
def tokR : List (BitVec 2) := List.replicate 8 (clockCode true)

/-- `A`: CLOCK(0), the master's ACK (R94). -/
def tokA : List (BitVec 2) := [clockCode false]

/-- `N`: CLOCK(1), the master's NACK (R94). -/
def tokN : List (BitVec 2) := [clockCode true]

/-- `WB xx = W xx K` (R95). -/
def tokWB (x : Byte) : List (BitVec 2) := tokW x ++ tokK

/-- `RB+ = R A` (R95). -/
def tokRBack : List (BitVec 2) := tokR ++ tokA

/-- `RB- = R N` (R95). -/
def tokRBnack : List (BitVec 2) := tokR ++ tokN

/-- The address byte with R/W = 0 (R80). -/
def writeAddrByte (a : BitVec 7) : Byte := a ++ 0b0#1

/-- The address byte with R/W = 1 (R80). -/
def readAddrByte (a : BitVec 7) : Byte := a ++ 0b1#1

/-- `WRITE a, p, d0, ..., dk-1 = S WB (a<<1) WB p WB d0 ... WB dk-1 P` (R95). -/
def writeTranscript (a : BitVec 7) (p : Byte) (ds : List Byte) : List (BitVec 2) :=
  tokS ++ tokWB (writeAddrByte a) ++ tokWB p ++ ds.flatMap tokWB ++ tokP

/-- `READ a, m + 1 = S WB (a<<1 | 1)`, then `RB+` m times, then `RB-`, then `P` (R95; a READ has n >= 1). -/
def readTranscript (a : BitVec 7) (m : Nat) : List (BitVec 2) :=
  tokS ++ tokWB (readAddrByte a) ++ (List.replicate m tokRBack).flatten ++ tokRBnack ++ tokP

/-- `PTRREAD a, p, m + 1 = S WB (a<<1) WB p S WB (a<<1 | 1)`, then `RB+` m times, then `RB-`, then `P` (R95). -/
def ptrReadTranscript (a : BitVec 7) (p : Byte) (m : Nat) : List (BitVec 2) :=
  tokS ++ tokWB (writeAddrByte a) ++ tokWB p ++ readTranscript a m

/-- The bus master's turns of a transcript with no application token. A pending event is handled before each of them, since
a bus turn waits for the pass (R96, 42_bus_and_bit_counter.md R185). -/
def turns (actions : List (BitVec 2)) : List Input := actions.map Input.bus

/-! ### Transcripts with application tokens (R94, R96) -/

/-- One entry of a transcript: a bus action, or an application token. -/
inductive Token where
  /-- A bus action with its code (R85). -/
  | act (code : BitVec 2)
  /-- An application token: one command of R89 with `idx = i` and `wdata = v` (R94). -/
  | app (cmd : BitVec 4) (idx : Byte) (wdata : Word)
  deriving DecidableEq, Repr

/-- The entries of a bus token. -/
def tokBus (actions : List (BitVec 2)) : List Token := actions.map Token.act

/-- The application token of an instruction of the application port, such as `tokApp (.setU8 i v)` for `SET.U8 i, v` (R94). -/
def tokApp (i : Instr) : List Token :=
  match encode i with
  | .command cmd idx wdata => [.app cmd idx wdata]
  | .event _ => []
  | .action _ => []
  | .wire _ => []

/-- The turns of one entry. After each bus action every pending event is handled, and an application token runs at its point,
so after that pass (R96): the engine has its turn before the application. A bus turn waits for the pass by itself (R185). -/
def Token.turns : Token → List Input
  | .act c => [.bus c]
  | .app cmd idx wdata => [.engine, .app cmd idx wdata]

/-- The turns of a transcript, in the order R96 fixes. -/
def schedule (tokens : List Token) : List Input := tokens.flatMap Token.turns

end Sys2Proof.Machine
end

