-- ==== Sys2Proof/Safety.lean ====
section
/-!
DEFINITION. What the claims are stated in terms of: the invariants of 10_state.md R36, reachability, when a pass or an
action is enabled, and what the bus master observes along a run.
-/

namespace Sys2Proof.Machine

/-- Idle, the state `go_idle` leaves (00_scope.md R15). -/
abbrev State.Idle (s : State) : Prop :=
  s.st = awaitAddress ∧ s.ap = false ∧ s.ovfEn = false ∧ s.sdaOe = false ∧ s.cnt = 8

/-- The invariants of 10_state.md R36, that both events are never pending together (60_exceptions.md R205), and that the
register file's list is in canonical form (the model's own, log 15). -/
structure State.Inv (s : State) : Prop where
  /-- R36.1 -/
  ptr_lt : s.ptr.toNat < s.n
  /-- R36.2 -/
  cnt_le : s.cnt.toNat ≤ 8
  /-- R36.3 -/
  st_le : s.st.toNat ≤ 5
  /-- R36.4 -/
  detached_idle : s.ovfEn = false → s.Idle
  /-- R36.5 -/
  ack_cnt : s.ap = true → s.cnt.toNat ≤ 1
  /-- R36.6 -/
  ovf_cnt : s.ovfPend = true → s.cnt = 0 ∧ s.ovfEn = true
  /-- R36.7: (AWAIT_ADDRESS, 1) does not occur. -/
  address_byte : s.st = awaitAddress → s.ap = false
  /-- R36.7: (READ_DATA_PRE, 0) does not occur. -/
  read_pre_ack : s.st = readDataPre → s.ap = true
  /-- R36.8 -/
  driving : s.sdaOe = true → s.ap = false → s.st = readAckPoll
  /-- R205 -/
  one_event : ¬ (s.startPend = true ∧ s.ovfPend = true)
  /-- log 15 -/
  rf_wf : Memory.wf s.params s.rf = true

/-- The states that runs reach from a reset of any instance, at any address, with any turns. -/
inductive Reachable : State → Prop where
  /-- The state right after reset (70_reset_and_hazards.md R230). -/
  | reset (p : Params) (cfg : BitVec 7) (turns : List Input) : Reachable (State.resetOf p cfg turns)
  /-- One step further. -/
  | step {s t : State} : Reachable s → Machine.step s = .next t → Reachable t

/-- The OVF pass of this pair is enabled (40_protocol_fsm.md R115), `rst` not being asserted. -/
abbrev State.PassReady (s : State) (st : BitVec 3) (ap : Bool) : Prop :=
  s.rst = false ∧ s.startPend = false ∧ s.ovfPend = true ∧ s.st = st ∧ s.ap = ap

/-- CLOCK is enabled (42_bus_and_bit_counter.md R183), `rst` not being asserted. -/
abbrev State.ClockReady (s : State) : Prop := s.rst = false ∧ s.sclPull = false

/-- START and STOP are enabled (42_bus_and_bit_counter.md R186, R187), `rst` not being asserted. -/
abbrev State.ConditionReady (s : State) : Prop := s.rst = false ∧ s.sclPull = false ∧ s.sdaPull = false

/-- The block waits for the first bit of an address byte, as a START pass leaves it (40_protocol_fsm.md R116). -/
abbrev State.AddressPhase (s : State) : Prop :=
  s.rst = false ∧ s.sclPull = false ∧ s.st = awaitAddress ∧ s.ap = false ∧ s.sdaOe = false ∧ s.ovfEn = true ∧ s.cnt = 8

/-- What the bus master observes in the step from `s` to `t`: the level a CLOCK returns (42_bus_and_bit_counter.md R183). -/
def observed (s t : State) : List Bool :=
  match fetch s with
  | .code (.action c) _ => if c.getLsbD 1 then [] else [t.line]
  | _ => []

/-- `k` steps from `s`, each answering a next state: the last state, and the levels the master observed, in order. -/
def observe : Nat → State → Option (State × List Bool)
  | 0, s => some (s, [])
  | k + 1, s =>
    match step s with
    | .next t => (observe k t).map (fun r => (r.1, observed s t ++ r.2))
    | .fault _ => none
    | .refused _ => none

/-- Nobody has a turn left and no event is pending. -/
abbrev State.Finished (s : State) : Prop := s.inputs = [] ∧ s.sclPull = false

/-- CLOCKs with these levels, one after the other, none of them while an event is pending. -/
def clocks (bs : List Bool) (s : State) : Result := bs.foldl (fun o b => andThen o (exec (.clock b))) (.next s)

/-- The instruction of the pass the engine takes in `s` (60_exceptions.md R204, R205). -/
def State.pass (s : State) : Instr := if s.startPend then .start s.st s.ap else decodeOvf s.st s.ap

end Sys2Proof.Machine
end

