-- ==== Sys2Proof/Certificates/Slice0/Obligations.lean ====
section
/-!
DEFINITION. The statements for the provers. Each docstring names the rule of spec/ it formalises; OBLIGATIONS.json has the
rest. Results are written out field by field, so that a statement also says what the instruction leaves unchanged.
-/

open Sys2Proof
open Sys2Proof.Machine

/-! ### Reset -/

/-- 70_reset_and_hazards.md R230, for every instance and address: the values, the lines, and that nothing but a START makes
the block count a bit or raise an event. (`rdata`, `err` and `line` are not named here: logs 10 and 11.) -/
def Obligations.ResetLeavesTheStatedValuesAndOnlyAStartWakesTheBlock : Prop :=
  ∀ (p : Params) (cfg : BitVec 7) (ts : List Input),
    let s := State.resetOf p cfg ts
    s.st = awaitAddress ∧ s.ptr = 0 ∧ s.ap = false ∧ (∀ i, i < s.n → s.rfByte i = p.rfInit.getD i 0) ∧
    s.sa = cfg ∧ s.sr = 0 ∧ s.cnt = 8 ∧ s.ovfEn = false ∧ s.sdaOe = false ∧ s.startPend = false ∧
    s.ovfPend = false ∧ s.stopFlag = false ∧ s.Idle ∧ s.sdaPull = false ∧ s.sclPull = false ∧
    ∀ i t, exec i s = .next t → i ≠ .startCond → t.cnt = 8 ∧ t.ovfEn = false ∧ t.sclPull = false

/-- 70_reset_and_hazards.md section 1 (R231), in the model's form of the reset input (logs 1, 3, 10, 11 and 12): while `rst` is
asserted every agent's step is refused; asserting it is possible at any time and keeps the state; its release leaves the
reset state whatever stood before, with `sa` from `cfg_addr` and `rf` again RF_INIT. -/
def Obligations.ResetInputStopsEveryAgentAndItsReleaseResets : Prop :=
  (∀ i s, s.rst = true → exec i s = .refused .inReset) ∧
  (∀ s rest, s.inputs = .rst true :: rest → step s = .next { s with inputs := rest, rst := true }) ∧
  (∀ s rest, s.rst = true → s.inputs = .rst false :: rest →
    step s = .next (State.resetOf s.params s.cfgAddr rest) ∧
    (State.resetOf s.params s.cfgAddr rest).sa = s.cfgAddr ∧
    ∀ i, (State.resetOf s.params s.cfgAddr rest).rfByte i = s.params.rfInit.getD i 0)

/-- 10_state.md section 2 (R24): only the release of `rst` (log 12) writes `sa`, and it loads it from `cfg_addr`. -/
def Obligations.OnlyTheReleaseOfResetWritesTheSlaveAddress : Prop :=
  ∀ s t, step s = .next t → t.sa = s.sa ∨ (s.rst = true ∧ s.inputs.head? = some (.rst false) ∧ t.sa = s.cfgAddr)

/-! ### The passes of the protocol engine -/

/-- 40_protocol_fsm.md R116, for every key of the row and in every state in which a START is pending. -/
def Obligations.StartPassRestartsTheTransactionAndKeepsThePointer : Prop :=
  ∀ st ap s, s.rst = false → s.startPend = true →
    exec (.start st ap) s =
      .next { s with startPend := false, ovfPend := false, st := awaitAddress, ap := false, sdaOe := false, cnt := 8,
                     ovfEn := true }

/-- 40_protocol_fsm.md R117: the address matcher compares all 7 bits; R/W selects the next state. -/
def Obligations.AddressMatcherAcksExactlyItsOwnAddress : Prop :=
  ∀ s, s.PassReady awaitAddress false →
    (s.sr.extractLsb' 1 7 = s.sa →
      exec .ovfAwaitAddressByte s =
        .next { s with sr := 0, sdaOe := true, cnt := 1, ap := true, ovfPend := false,
                       st := if s.sr.getLsbD 0 then readDataPre else awaitRegisterPointer }) ∧
    (s.sr.extractLsb' 1 7 ≠ s.sa →
      exec .ovfAwaitAddressByte s =
        .next { s with st := awaitAddress, ap := false, sdaOe := false, ovfEn := false, cnt := 8, ovfPend := false })

/-- 40_protocol_fsm.md R118, R126, R129: an unreachable pair or a reserved state code goes idle. -/
def Obligations.UnreachablePairsAndReservedCodesGoIdle : Prop :=
  ∀ s i st ap, s.PassReady st ap →
    (i = .ovfAwaitAddressAck ∧ st = awaitAddress ∧ ap = true ∨
     i = .ovfReadDataPreByte ∧ st = readDataPre ∧ ap = false ∨
     i = .ovfReservedState st ap ∧ 6 ≤ st.toNat) →
    exec i s =
      .next { s with st := awaitAddress, ap := false, sdaOe := false, ovfEn := false, cnt := 8, ovfPend := false }

/-- 40_protocol_fsm.md R119: the pointer byte, reduced modulo N, and its ACK. -/
def Obligations.PointerByteSetsThePointerModuloN : Prop :=
  ∀ s, s.PassReady awaitRegisterPointer false →
    exec .ovfAwaitRegisterPointerByte s =
      .next { s with ptr := BitVec.ofNat 8 (s.sr.toNat % s.n), sr := 0, sdaOe := true, cnt := 1, ap := true,
                     st := writeData, ovfPend := false } ∧
    (BitVec.ofNat 8 (s.sr.toNat % s.n)).toNat = s.sr.toNat % s.n ∧
    (s.n = 256 → BitVec.ofNat 8 (s.sr.toNat % s.n) = s.sr)

/-- 40_protocol_fsm.md R120, R122, R124: the end of the slave's own ACK. The state and the pointer stay. -/
def Obligations.EndOfTheSlavesAckReleasesSdaAndRearmsTheCounter : Prop :=
  ∀ s i st, s.PassReady st true →
    (i = .ovfAwaitRegisterPointerAck ∧ st = awaitRegisterPointer ∨ i = .ovfWriteDataAck ∧ st = writeData ∨
     i = .ovfPostWriteAckAck ∧ st = postWriteAck) →
    exec i s = .next { s with sdaOe := false, cnt := 8, ap := false, ovfPend := false }

/-- 40_protocol_fsm.md R121: the first data byte is stored at `ptr`, no other byte changes. (`ptr < N` is an invariant.) -/
def Obligations.FirstDataByteIsStoredAtThePointer : Prop :=
  ∀ s, s.PassReady writeData false → s.ptr.toNat < s.n → Memory.wf s.params s.rf = true →
    ∃ t, exec .ovfWriteDataByte s = .next t ∧
      t = { s with rf := t.rf, sr := 0, sdaOe := true, cnt := 1, ap := true, st := postWriteAck, ovfPend := false } ∧
      ∀ i, t.rfByte i = if i = s.ptr.toNat then s.sr else s.rfByte i

/-- 40_protocol_fsm.md R123: after a STOP the byte is dropped; otherwise the pointer advances and the byte is stored at the
new pointer. -/
def Obligations.FurtherDataByteAdvancesThePointerUnlessStopped : Prop :=
  ∀ s, s.PassReady postWriteAck false →
    (s.stopFlag = true →
      exec .ovfPostWriteAckByte s =
        .next { s with st := awaitAddress, ap := false, sdaOe := false, ovfEn := false, cnt := 8, ovfPend := false }) ∧
    (s.stopFlag = false → Memory.wf s.params s.rf = true →
      ∃ t, exec .ovfPostWriteAckByte s = .next t ∧
        t = { s with ptr := t.ptr, rf := t.rf, sr := 0, sdaOe := true, cnt := 1, ap := true, st := postWriteAck,
                     ovfPend := false } ∧
        t.ptr.toNat = (s.ptr.toNat + 1) % s.n ∧
        ∀ i, t.rfByte i = if i = (s.ptr.toNat + 1) % s.n then s.sr else s.rfByte i)

/-- 40_protocol_fsm.md R125: the first byte of a read is loaded from `ptr`. (`ptr < N` is an invariant.) -/
def Obligations.FirstReadByteIsLoadedFromThePointer : Prop :=
  ∀ s, s.PassReady readDataPre true → s.ptr.toNat < s.n →
    exec .ovfReadDataPreAck s =
      .next { s with sr := s.rfByte s.ptr.toNat, sdaOe := true, st := readAckPoll, cnt := 8, ap := false,
                     ovfPend := false }

/-- 40_protocol_fsm.md R127: SDA is released for the master's ACK bit and the counter is armed with 1. -/
def Obligations.SentByteOpensTheMastersAckWindow : Prop :=
  ∀ s, s.PassReady readAckPoll false →
    exec .ovfReadAckPollByte s = .next { s with sdaOe := false, cnt := 1, ap := true, ovfPend := false }

/-- 40_protocol_fsm.md R128: the sampled ninth bit decides between the next byte and the end. -/
def Obligations.MastersAckLoadsTheNextByteAndNackEnds : Prop :=
  ∀ s, s.PassReady readAckPoll true →
    (s.sr.getLsbD 0 = false →
      ∃ t, exec .ovfReadAckPollAck s = .next t ∧
        t = { s with ptr := t.ptr, sr := s.rfByte ((s.ptr.toNat + 1) % s.n), sdaOe := true, st := readAckPoll,
                     cnt := 8, ap := false, ovfPend := false } ∧
        t.ptr.toNat = (s.ptr.toNat + 1) % s.n) ∧
    (s.sr.getLsbD 0 = true →
      exec .ovfReadAckPollAck s =
        .next { s with st := awaitAddress, ap := false, sdaOe := false, ovfEn := false, cnt := 8, ovfPend := false })

/-- 40_protocol_fsm.md sections 2 and 3 (R115, R116): an OVF pass runs exactly when its event is pending, no START is, and its
key is the state's; it then completes, and its exit clears `ovf_pend` and so releases SCL. A START pass runs exactly when a
START is pending. That a pass which is not enabled is refused by name is the model's form of "no such step" (log 3). (The
premise on `ptr` is an invariant.) -/
def Obligations.PassesRunExactlyWhenTheyAreSelected : Prop :=
  ∀ st ap s, s.rst = false →
    ((∃ t, exec (.start st ap) s = .next t) ↔ s.startPend = true) ∧
    (s.startPend = false → exec (.start st ap) s = .refused .passNotEnabled) ∧
    (s.PassReady st ap → s.ptr.toNat < s.n →
      ∃ t, exec (decodeOvf st ap) s = .next t ∧ t.ovfPend = false ∧ t.sclPull = false) ∧
    (¬ s.PassReady st ap → exec (decodeOvf st ap) s = .refused .passNotEnabled)

/-- The model's choice (log 14), no rule of the spec: the raw byte port stops on an index the file does not have. -/
def Obligations.RawBytePortStopsOutsideTheFile : Prop :=
  ∀ s, s.n ≤ s.ptr.toNat →
    (s.PassReady writeData false → exec .ovfWriteDataByte s = .fault (.indexOutsideFile s.ptr.toNat)) ∧
    (s.PassReady readDataPre true → exec .ovfReadDataPreAck s = .fault (.indexOutsideFile s.ptr.toNat))

/-- 40_protocol_fsm.md R114. -/
def Obligations.IncrementWrapsModuloN : Prop :=
  ∀ s : State, s.ptr.toNat < s.n →
    s.incPtr.toNat = (s.ptr.toNat + 1) % s.n ∧ s.incPtr.toNat < s.n ∧ (s.n = 256 → s.ptr = 255 → s.incPtr = 0)

/-- 60_exceptions.md section 2 (R204), in the model's form of a turn (log 1): the engine's turn takes the START pass if a START is pending, else the OVF pass of the state's key
if an OVF is pending, else nothing, whatever `st` is. -/
def Obligations.EngineTurnTakesTheSelectedPass : Prop :=
  ∀ s rest, s.rst = false → s.inputs = .engine :: rest →
    step s =
      if s.startPend then exec (.start s.st s.ap) { s with inputs := rest }
      else if s.ovfPend then exec (decodeOvf s.st s.ap) { s with inputs := rest }
      else .next { s with inputs := rest }

/-- 60_exceptions.md R205 (an inference the spec marks as derived, with decision D15): a pending START is taken first and
its pass discards the pending OVF. -/
def Obligations.PendingStartIsTakenFirstAndDiscardsTheOverflow : Prop :=
  ∀ s rest, s.rst = false → s.startPend = true → s.ovfPend = true → s.inputs = .engine :: rest →
    ∃ t, step s = .next t ∧ t.startPend = false ∧ t.ovfPend = false ∧ t.st = awaitAddress ∧ t.ap = false ∧
      t.ptr = s.ptr ∧ t.rf = s.rf

/-- 60_exceptions.md R206 (derived in the spec from R203 and R64): no step but the pass that handles it clears a pending
event. -/
def Obligations.PendingEventsWaitForTheirPass : Prop :=
  ∀ i s t, exec i s = .next t →
    (s.startPend = true → (∃ st ap, i = .start st ap) ∨ t.startPend = true) ∧
    (s.ovfPend = true → (∃ key, encode i = .event key) ∨ t.ovfPend = true)

/-- 60_exceptions.md sections 2 and 3 (R204, R208, R209), in an invariant state: with an event pending, the next step of a
machine whose other agents have no turn, or whose bus master waits, is a pass that completes and releases SCL. -/
def Obligations.PendingEventIsHandledInOneStep : Prop :=
  ∀ s, s.Inv → s.rst = false → s.sclPull = true →
    (s.inputs = [] ∨ ∃ c rest, s.inputs = .bus c :: rest) →
    ∃ t, step s = .next t ∧ exec s.pass s = .next t ∧ t.sclPull = false ∧ t.inputs = s.inputs

/-! ### The application port -/

/-- 41_register_file_access.md R153, R154, R155. -/
def Obligations.UnsignedGetsAnswerTheZeroExtendedBytes : Prop :=
  ∀ idx s, s.rst = false →
    let i := idx.toNat
    (i + 1 ≤ s.n → exec (.getU8 idx) s = .next { s with rdata := 0#24 ++ s.rfByte i, err := 0 }) ∧
    (s.n < i + 1 → exec (.getU8 idx) s = .next { s with rdata := 0, err := 1 }) ∧
    (i + 2 ≤ s.n →
      exec (.getU16 idx) s = .next { s with rdata := 0#16 ++ (s.rfByte i ++ s.rfByte (i + 1)), err := 0 }) ∧
    (s.n < i + 2 → exec (.getU16 idx) s = .next { s with rdata := 0, err := 1 }) ∧
    (i + 4 ≤ s.n →
      exec (.getU32 idx) s =
        .next { s with rdata := s.rfByte i ++ s.rfByte (i + 1) ++ s.rfByte (i + 2) ++ s.rfByte (i + 3), err := 0 }) ∧
    (s.n < i + 4 → exec (.getU32 idx) s = .next { s with rdata := 0, err := 1 })

/-- 41_register_file_access.md R156, R157, R158: the answer has the value of the bytes read as two's complement. -/
def Obligations.SignedGetsAnswerTheSignExtendedBytes : Prop :=
  ∀ idx s, s.rst = false →
    let i := idx.toNat
    let v16 : BitVec 16 := s.rfByte i ++ s.rfByte (i + 1)
    let v32 : BitVec 32 := s.rfByte i ++ s.rfByte (i + 1) ++ s.rfByte (i + 2) ++ s.rfByte (i + 3)
    (i + 1 ≤ s.n → ∃ v : BitVec 32, v.toInt = (s.rfByte i).toInt ∧
      exec (.getS8 idx) s = .next { s with rdata := v, err := 0 }) ∧
    (s.n < i + 1 → exec (.getS8 idx) s = .next { s with rdata := 0, err := 1 }) ∧
    (i + 2 ≤ s.n → ∃ v : BitVec 32, v.toInt = v16.toInt ∧
      exec (.getS16 idx) s = .next { s with rdata := v, err := 0 }) ∧
    (s.n < i + 2 → exec (.getS16 idx) s = .next { s with rdata := 0, err := 1 }) ∧
    (i + 4 ≤ s.n → exec (.getS32 idx) s = .next { s with rdata := v32, err := 0 }) ∧
    (s.n < i + 4 → exec (.getS32 idx) s = .next { s with rdata := 0, err := 1 })

/-- 41_register_file_access.md R159, R162: the low byte of `wdata`, at `idx` alone; the signedness bit changes nothing. -/
def Obligations.ByteSetsWriteTheLowByteAtTheIndex : Prop :=
  ∀ idx wdata i s, i = .setU8 idx wdata ∨ i = .setS8 idx wdata → s.rst = false → Memory.wf s.params s.rf = true →
    (idx.toNat + 1 ≤ s.n →
      ∃ t, exec i s = .next t ∧ t = { s with rf := t.rf, rdata := 0, err := 0 } ∧
        ∀ j, t.rfByte j = if j = idx.toNat then wdata.extractLsb' 0 8 else s.rfByte j) ∧
    (s.n < idx.toNat + 1 → exec i s = .next { s with rdata := 0, err := 1 })

/-- 41_register_file_access.md R160, R163: big-endian; out of bounds, neither byte is written. -/
def Obligations.HalfwordSetsWriteTwoBytesBigEndian : Prop :=
  ∀ idx wdata i s, i = .setU16 idx wdata ∨ i = .setS16 idx wdata → s.rst = false → Memory.wf s.params s.rf = true →
    (idx.toNat + 2 ≤ s.n →
      ∃ t, exec i s = .next t ∧ t = { s with rf := t.rf, rdata := 0, err := 0 } ∧
        ∀ j, t.rfByte j =
          if j = idx.toNat then wdata.extractLsb' 8 8
          else if j = idx.toNat + 1 then wdata.extractLsb' 0 8
          else s.rfByte j) ∧
    (s.n < idx.toNat + 2 → exec i s = .next { s with rdata := 0, err := 1 })

/-- 41_register_file_access.md R161, R164: big-endian; out of bounds, no byte is written. -/
def Obligations.WordSetsWriteFourBytesBigEndian : Prop :=
  ∀ idx wdata i s, i = .setU32 idx wdata ∨ i = .setS32 idx wdata → s.rst = false → Memory.wf s.params s.rf = true →
    (idx.toNat + 4 ≤ s.n →
      ∃ t, exec i s = .next t ∧ t = { s with rf := t.rf, rdata := 0, err := 0 } ∧
        ∀ j, t.rfByte j =
          if j = idx.toNat then wdata.extractLsb' 24 8
          else if j = idx.toNat + 1 then wdata.extractLsb' 16 8
          else if j = idx.toNat + 2 then wdata.extractLsb' 8 8
          else if j = idx.toNat + 3 then wdata.extractLsb' 0 8
          else s.rfByte j) ∧
    (s.n < idx.toNat + 4 → exec i s = .next { s with rdata := 0, err := 1 })

/-- 41_register_file_access.md R165: rejected whatever the operands, out of bounds included. -/
def Obligations.ReservedWidthIsRejectedBeforeTheBoundCheck : Prop :=
  ∀ dir sgn idx wdata s, s.rst = false →
    exec (.reservedWidth dir sgn idx wdata) s = .next { s with rdata := 0, err := 2 }

/-- 41_register_file_access.md R152, R166: the two checks in their order decide `err`, a rejected operation answers 0 and
writes no state but the results, code 3 is never produced, and nothing else makes an operation fail. -/
def Obligations.ApplicationChecksDecideTheErrorCode : Prop :=
  ∀ i cmd idx w s, encode i = .command cmd idx w → s.rst = false →
    let wcode := (cmd.extractLsb' 0 2).toNat
    ∃ t, exec i s = .next t ∧
      t.err = (if wcode = 3 then 2 else if idx.toNat + 2 ^ wcode > s.n then 1 else 0) ∧
      (t.err ≠ 0 → t = { s with rdata := 0, err := t.err })

/-- 41_register_file_access.md R167: an application operation writes no field of the protocol side, and what it writes and
answers does not depend on one. -/
def Obligations.ApplicationOperationsTouchOnlyTheRegisterFile : Prop :=
  ∀ i cmd idx w s t, encode i = .command cmd idx w → exec i s = .next t →
    t = { s with rf := t.rf, rdata := t.rdata, err := t.err } ∧
    ∀ s' : State, s'.rst = s.rst → s'.params = s.params → s'.rf = s.rf →
      ∃ t', exec i s' = .next t' ∧ t'.rf = t.rf ∧ t'.rdata = t.rdata ∧ t'.err = t.err

/-- 41_register_file_access.md R168 (derived in the spec from R153 to R164): a GET directly after a SET of the same type
answers the value, for every value representable at that width and signedness. -/
def Obligations.GetAfterSetAnswersTheValue : Prop :=
  ∀ idx s, s.rst = false → Memory.wf s.params s.rf = true →
    (idx.toNat + 1 ≤ s.n → ∀ x : BitVec 8,
      (∃ t u, exec (.setU8 idx (x.setWidth 32)) s = .next t ∧ exec (.getU8 idx) t = .next u ∧
        u.rdata = x.setWidth 32 ∧ u.err = 0) ∧
      (∃ t u, exec (.setS8 idx (x.signExtend 32)) s = .next t ∧ exec (.getS8 idx) t = .next u ∧
        u.rdata = x.signExtend 32 ∧ u.err = 0)) ∧
    (idx.toNat + 2 ≤ s.n → ∀ x : BitVec 16,
      (∃ t u, exec (.setU16 idx (x.setWidth 32)) s = .next t ∧ exec (.getU16 idx) t = .next u ∧
        u.rdata = x.setWidth 32 ∧ u.err = 0) ∧
      (∃ t u, exec (.setS16 idx (x.signExtend 32)) s = .next t ∧ exec (.getS16 idx) t = .next u ∧
        u.rdata = x.signExtend 32 ∧ u.err = 0)) ∧
    (idx.toNat + 4 ≤ s.n → ∀ x : BitVec 32,
      (∃ t u, exec (.setU32 idx x) s = .next t ∧ exec (.getU32 idx) t = .next u ∧ u.rdata = x ∧ u.err = 0) ∧
      (∃ t u, exec (.setS32 idx x) s = .next t ∧ exec (.getS32 idx) t = .next u ∧ u.rdata = x ∧ u.err = 0))

/-! ### The bus master's actions -/

/-- 42_bus_and_bit_counter.md R183: sample, shift, count, raise. `line` is where the model keeps the level the action returns. -/
def Obligations.ClockSamplesShiftsAndCounts : Prop :=
  ∀ b s, s.ClockReady →
    let level := b && !(s.sdaOe && !s.sr.getLsbD 7)
    exec (.clock b) s =
      .next { s with line := level, sr := s.sr.extractLsb' 0 7 ++ BitVec.ofBool level,
                     cnt := if s.ovfEn = true ∧ 0 < s.cnt.toNat then s.cnt - 1 else s.cnt,
                     ovfPend := decide (s.ovfEn = true ∧ s.cnt = 1) }

/-- 42_bus_and_bit_counter.md R184: the overflow comes after exactly as many CLOCKs as were loaded; detached, or at 0, the
counter stays; every pass reloads it, with 1 when an ACK bit follows and else with 8. -/
def Obligations.OverflowComesAfterExactlyTheLoadedNumberOfClocks : Prop :=
  (∀ s bs, s.ClockReady → s.ovfEn = true → bs.length ≤ s.cnt.toNat → 0 < s.cnt.toNat →
    ∃ t, clocks bs s = .next t ∧ t.cnt.toNat = s.cnt.toNat - bs.length ∧
      t.ovfPend = decide (bs.length = s.cnt.toNat)) ∧
  (∀ s bs, s.ClockReady → s.ovfEn = false ∨ s.cnt = 0 →
    ∃ t, clocks bs s = .next t ∧ t.cnt = s.cnt ∧ t.ovfPend = false) ∧
  (∀ i key s t, encode i = .event key → exec i s = .next t → t.cnt = if t.ap then 1 else 8)

/-- 42_bus_and_bit_counter.md R181: while `sda_oe = 1` the block pulls SDA exactly for a 0 in `sr[7]`; and in the 8 CLOCKs after
a byte is loaded the bits it puts on the line are the byte's, most significant first, whatever the master does. -/
def Obligations.LoadedByteIsPresentedMostSignificantBitFirst : Prop :=
  (∀ s : State, s.sdaOe = true → s.sdaPull = !s.sr.getLsbD 7) ∧
  ∀ s bs, s.ClockReady → s.sdaOe = true → s.cnt = 8 → bs.length < 8 →
    ∃ t, clocks bs s = .next t ∧ t.ClockReady ∧ t.sdaPull = !s.sr.getLsbD (7 - bs.length)

/-- 42_bus_and_bit_counter.md section 2 (R185): while an event is pending no bus action is enabled (refused by name, log 3), and a
master's turn waits for the pass (log 2). -/
def Obligations.NoBusActionWhileAnEventIsPending : Prop :=
  ∀ s, s.rst = false → s.sclPull = true →
    (∀ i, (∃ c, encode i = .action c) ∨ (∃ x, encode i = .wire x) → exec i s = .refused .sclHeld) ∧
    (∀ rest, (∃ c, s.inputs = .bus c :: rest) ∨ (∃ x, s.inputs = .wire x :: rest) → step s = exec s.pass s)

/-- 42_bus_and_bit_counter.md R186: a START may come in any state and whatever `ovf_en` is. -/
def Obligations.StartConditionRaisesTheStartEvent : Prop :=
  ∀ s, s.ConditionReady → exec .startCond s = .next { s with startPend := true, stopFlag := false }

/-- 42_bus_and_bit_counter.md R187: STOP writes the flag and raises no event. -/
def Obligations.StopConditionWritesOnlyTheFlag : Prop :=
  ∀ s, s.ConditionReady → exec .stopCond s = .next { s with stopFlag := true }

/-- 42_bus_and_bit_counter.md section 2 (R188): no START or STOP while the block pulls SDA, as it does from `arm_ack` on and while
it presents a 0 data bit (refused by name, log 3). -/
def Obligations.NoStartOrStopWhileTheBlockPullsSda : Prop :=
  ∀ s, s.ClockReady → s.sdaPull = true →
    exec .startCond s = .refused .sdaHeld ∧ exec .stopCond s = .refused .sdaHeld

/-- 42_bus_and_bit_counter.md R189 (derived in the spec from R110, R183, R184 and R32): in an invariant state with `ovf_en = 0`
the block holds neither line, and every step but a START leaves it idle, its pointer kept. -/
def Obligations.DetachedBlockStaysPassiveUntilAStart : Prop :=
  ∀ s, s.Inv → s.ovfEn = false → s.startPend = false →
    s.sdaPull = false ∧ s.sclPull = false ∧
    ∀ i t, exec i s = .next t → i ≠ .startCond →
      t.Idle ∧ t.sdaPull = false ∧ t.sclPull = false ∧ t.ptr = s.ptr

/-! ### Wire address bytes -/

/-- The model's reading of the rows ADDR.W and ADDR.R (log 4), resting on 30_encoding.md sections 1 and 7 (R80, R94, R96) and
40_protocol_fsm.md R117: in the address phase the byte reaches the matcher, which ACKs exactly its own address. -/
def Obligations.AddressByteOnTheWireReachesTheMatcher : Prop :=
  ∀ a s, s.AddressPhase →
    (a = s.sa →
      exec (.addrW a) s =
        .next { s with sr := 0, sdaOe := true, cnt := 1, ap := true, st := awaitRegisterPointer, line := false } ∧
      exec (.addrR a) s =
        .next { s with sr := 0, sdaOe := true, cnt := 1, ap := true, st := readDataPre, line := true }) ∧
    (a ≠ s.sa →
      exec (.addrW a) s = .next { s with sr := a ++ 0b0#1, ovfEn := false, line := false } ∧
      exec (.addrR a) s = .next { s with sr := a ++ 0b1#1, ovfEn := false, line := true })

/-- The model's reading of the rows ADDR.W and ADDR.R (log 4), resting on 30_encoding.md section 7 (R94, R96): a wire byte is
8 CLOCKs, most significant bit first, each followed by the pass it calls for; from an invariant state with SCL free
it completes. -/
def Obligations.WireByteIsEightClocksAndTheirPasses : Prop :=
  ∀ a s,
    let bitThenPass := fun (o : Result) (b : Bool) =>
      andThen (andThen o (exec (.clock b))) (fun u => if u.sclPull then exec u.pass u else .next u)
    exec (.addrW a) s = (bitsMsbFirst (a ++ 0b0#1)).foldl bitThenPass (.next s) ∧
    exec (.addrR a) s = (bitsMsbFirst (a ++ 0b1#1)).foldl bitThenPass (.next s) ∧
    (s.Inv → s.ClockReady → (∃ t, exec (.addrW a) s = .next t ∧ t.Inv) ∧ ∃ t, exec (.addrR a) s = .next t ∧ t.Inv)

/-! ### Encoding -/

/-- The words of 30_encoding.md's tables: R87 (and R86 for the keys never formed), R89, R85, R80. -/
def Obligations.WordsOfTheEncodingTablesDecode : Prop :=
  (∀ x : BitVec 4, decode (.event (0b01#2 ++ x)) = .ok (.start (x.extractLsb' 1 3) (x.getLsbD 0))) ∧
  decode (.event 0b100000#6) = .ok .ovfAwaitAddressByte ∧
  decode (.event 0b100001#6) = .ok .ovfAwaitAddressAck ∧
  decode (.event 0b100010#6) = .ok .ovfAwaitRegisterPointerByte ∧
  decode (.event 0b100011#6) = .ok .ovfAwaitRegisterPointerAck ∧
  decode (.event 0b100100#6) = .ok .ovfWriteDataByte ∧
  decode (.event 0b100101#6) = .ok .ovfWriteDataAck ∧
  decode (.event 0b100110#6) = .ok .ovfPostWriteAckByte ∧
  decode (.event 0b100111#6) = .ok .ovfPostWriteAckAck ∧
  decode (.event 0b101001#6) = .ok .ovfReadDataPreAck ∧
  decode (.event 0b101000#6) = .ok .ovfReadDataPreByte ∧
  decode (.event 0b101010#6) = .ok .ovfReadAckPollByte ∧
  decode (.event 0b101011#6) = .ok .ovfReadAckPollAck ∧
  (∀ x : BitVec 2, decode (.event (0b1011#4 ++ x)) = .ok (.ovfReservedState (0b11#2 ++ x.extractLsb' 1 1) (x.getLsbD 0))) ∧
  (∀ x : BitVec 4, decode (.event (0b00#2 ++ x)) = .error .noEvent) ∧
  (∀ x : BitVec 4, decode (.event (0b11#2 ++ x)) = .error .eventNeverFormed) ∧
  (∀ idx w, decode (.command 0b0000#4 idx w) = .ok (.getU8 idx) ∧ decode (.command 0b0001#4 idx w) = .ok (.getU16 idx) ∧
    decode (.command 0b0010#4 idx w) = .ok (.getU32 idx) ∧ decode (.command 0b0100#4 idx w) = .ok (.getS8 idx) ∧
    decode (.command 0b0101#4 idx w) = .ok (.getS16 idx) ∧ decode (.command 0b0110#4 idx w) = .ok (.getS32 idx) ∧
    decode (.command 0b1000#4 idx w) = .ok (.setU8 idx w) ∧ decode (.command 0b1001#4 idx w) = .ok (.setU16 idx w) ∧
    decode (.command 0b1010#4 idx w) = .ok (.setU32 idx w) ∧ decode (.command 0b1100#4 idx w) = .ok (.setS8 idx w) ∧
    decode (.command 0b1101#4 idx w) = .ok (.setS16 idx w) ∧ decode (.command 0b1110#4 idx w) = .ok (.setS32 idx w) ∧
    decode (.command 0b0011#4 idx w) = .ok (.reservedWidth false false idx w) ∧
    decode (.command 0b0111#4 idx w) = .ok (.reservedWidth false true idx w) ∧
    decode (.command 0b1011#4 idx w) = .ok (.reservedWidth true false idx w) ∧
    decode (.command 0b1111#4 idx w) = .ok (.reservedWidth true true idx w)) ∧
  decode (.action 0b00#2) = .ok (.clock false) ∧ decode (.action 0b01#2) = .ok (.clock true) ∧
  decode (.action 0b10#2) = .ok .startCond ∧ decode (.action 0b11#2) = .ok .stopCond ∧
  (∀ a : BitVec 7, decode (.wire (a ++ 0b0#1)) = .ok (.addrW a) ∧ decode (.wire (a ++ 0b1#1)) = .ok (.addrR a))

/-- Decoding an encoded well-formed instruction gives it back, every operand at every value (30_encoding.md). -/
def Obligations.DecodeOfEncodeIsTheInstruction : Prop :=
  ∀ i : Instr, i.wf = true → decode (encode i) = .ok i

/-- What decodes is well-formed and encodes back to the same word; of a GET, but for the `wdata` it does not have (log 16;
30_encoding.md). Every encoding but the keys with `ev` 00 or 11 decodes. -/
def Obligations.EncodeOfDecodeIsTheWord : Prop :=
  (∀ e i, decode e = .ok i →
    i.wf = true ∧
    (encode i = e ∨ ∃ cmd idx w, e = .command cmd idx w ∧ cmd.getLsbD 3 = false ∧ encode i = .command cmd idx 0)) ∧
  (∀ e why, decode e = .error why → ∃ key : BitVec 6, e = .event key ∧ key.getLsbD 5 = key.getLsbD 4)

/-! ### The step -/

/-- A step runs the instruction of the turn at the head of the list, with that turn taken off (the model's log 1, on
00_scope.md R3 and 20_memory.md R60). A bus master's turn waits while an event is pending (log 2). -/
def Obligations.StepRunsTheInstructionOfTheTurn : Prop :=
  ∀ s rest,
    (∀ cmd idx w i, s.inputs = .app cmd idx w :: rest → decode (.command cmd idx w) = .ok i →
      step s = exec i { s with inputs := rest }) ∧
    (∀ c i, s.inputs = .bus c :: rest → s.engineReady = false → decode (.action c) = .ok i →
      step s = exec i { s with inputs := rest }) ∧
    (∀ x i, s.inputs = .wire x :: rest → s.engineReady = false → decode (.wire x) = .ok i →
      step s = exec i { s with inputs := rest }) ∧
    (∀ i, s.inputs = .engine :: rest → s.engineReady = true → decode (.event s.key) = .ok i →
      step s = exec i { s with inputs := rest }) ∧
    (∀ i, s.engineReady = true → decode (.event s.key) = .ok i →
      (s.inputs = [] ∨ (∃ c, s.inputs = .bus c :: rest) ∨ ∃ x, s.inputs = .wire x :: rest) → step s = exec i s) ∧
    (s.inputs = [] → s.engineReady = false → step s = .next s) ∧
    (s.inputs = .engine :: rest → s.engineReady = false → step s = .next { s with inputs := rest }) ∧
    (∀ a, s.inputs = .cfg a :: rest → step s = .next { s with inputs := rest, cfgAddr := a })

/-! ### The whole machine -/

/-- The invariants of 10_state.md section 5 (R36) hold right after reset, of any instance and of `State.reset` (logs 7 and 8). -/
def Obligations.ResetMeetsTheInvariants : Prop :=
  (∀ (p : Params) (cfg : BitVec 7) (ts : List Input), (State.resetOf p cfg ts).Inv) ∧ State.reset.Inv

/-- 10_state.md R36 (derived in the spec), R205's exclusion and the canonical form (log 15): every step from a state that
meets the invariants leads to one that meets them. -/
def Obligations.EveryStepKeepsTheInvariants : Prop :=
  ∀ s t, s.Inv → step s = .next t → t.Inv

/-- 10_state.md R36 (derived in the spec), R205's exclusion and the canonical form of `rf` (log 15): the invariants hold in every
state reachable from a reset of any instance. -/
def Obligations.EveryReachableStateMeetsTheInvariants : Prop :=
  ∀ s, Reachable s → s.Inv

/-- 60_exceptions.md section 1 (R200), in an invariant state: no step faults, and the only turns that are not taken are those
no agent can take: any agent's while `rst` is asserted, and a START or STOP while the block pulls SDA (logs 2 and 3). -/
def Obligations.NoConditionStopsTheBlock : Prop :=
  ∀ s, s.Inv →
    (∃ t, step s = .next t) ∨
    (step s = .refused .inReset ∧ s.rst = true) ∨
    (step s = .refused .sdaHeld ∧ s.sdaPull = true ∧
      (s.inputs.head? = some (.bus 0b10#2) ∨ s.inputs.head? = some (.bus 0b11#2)))

/-- 10_state.md section 1 (R21) and section 5 of 40_protocol_fsm.md (R133), for single steps: only the pointer byte and the two
increments write `ptr`. (A wire byte, log 4, is a run of steps and is left to the statements about it.) -/
def Obligations.OnlyPointerByteAndIncrementsWriteThePointer : Prop :=
  ∀ i s t, exec i s = .next t → (∀ x, encode i ≠ .wire x) →
    t.ptr = s.ptr ∨
    (i = .ovfAwaitRegisterPointerByte ∧ t.ptr.toNat = s.sr.toNat % s.n) ∨
    ((i = .ovfPostWriteAckByte ∨ i = .ovfReadAckPollAck) ∧ t.ptr.toNat = (s.ptr.toNat + 1) % s.n)

/-- The "written by" column of 10_state.md's table, for the elements few steps write: no instruction writes a parameter, an
input line, the turns or `sa`; only START and STOP write `stop_flag`; only START raises `start_pend`; only the application
port writes its results; only a CLOCK is seen by the master; and `rf` is written by the two storing passes and the
SETs alone. (A wire byte, log 4, may run one of these passes.) -/
def Obligations.EachElementIsWrittenOnlyByItsSteps : Prop :=
  ∀ i s t, exec i s = .next t →
    t.params = s.params ∧ t.sa = s.sa ∧ t.rst = s.rst ∧ t.cfgAddr = s.cfgAddr ∧ t.inputs = s.inputs ∧
    (t.stopFlag = s.stopFlag ∨ i = .startCond ∨ i = .stopCond) ∧
    (t.startPend = true → s.startPend = true ∨ i = .startCond) ∧
    (t.rdata = s.rdata ∧ t.err = s.err ∨ ∃ cmd idx w, encode i = .command cmd idx w) ∧
    (t.line = s.line ∨ (∃ b, i = .clock b) ∨ ∃ x, encode i = .wire x) ∧
    (t.rf = s.rf ∨ i = .ovfWriteDataByte ∨ i = .ovfPostWriteAckByte ∨
      (∃ cmd idx w, encode i = .command cmd idx w ∧ cmd.getLsbD 3 = true) ∨ ∃ x, encode i = .wire x)

/-- 20_memory.md R57 (derived in the spec from R51 and R55): both ports name the same bytes. A GET sees the byte a pass stored,
and a read pass after a 32-bit SET at the pointer sends the value's most significant byte first. -/
def Obligations.BothPortsNameTheSameBytes : Prop :=
  (∀ s t, s.PassReady writeData false → Memory.wf s.params s.rf = true → exec .ovfWriteDataByte s = .next t →
    ∃ u, exec (.getU8 s.ptr) t = .next u ∧ u.rdata = s.sr.setWidth 32 ∧ u.err = 0) ∧
  (∀ s v, s.PassReady readDataPre true → Memory.wf s.params s.rf = true → s.ptr.toNat + 4 ≤ s.n →
    ∃ t u, exec (.setU32 s.ptr v) s = .next t ∧ exec .ovfReadDataPreAck t = .next u ∧ u.sr = v.extractLsb' 24 8)

/-- 20_memory.md section 4 (R64), in the model's form of the order (log 1), on the first situation of 95_test_vectors.md section 2.4: a pass that stores the received byte is pending
and the application sets the same byte. Both orders are runs; the byte that stays is the later one's, and both end with
the ACK armed. -/
def Obligations.PassAndApplicationOperationMayGoInEitherOrder : Prop :=
  ∀ s w rest, s.PassReady writeData false → s.ptr.toNat < s.n → Memory.wf s.params s.rf = true →
    (s.inputs = .app 0b1000#4 s.ptr w :: .engine :: rest →
      ∃ t, Host.Core.run core 2 s = .next t ∧ t.rfByte s.ptr.toNat = s.sr ∧ t.sdaPull = true ∧ t.ap = true ∧
        t.inputs = rest) ∧
    (s.inputs = .engine :: .app 0b1000#4 s.ptr w :: rest →
      ∃ t, Host.Core.run core 2 s = .next t ∧ t.rfByte s.ptr.toNat = w.extractLsb' 0 8 ∧ t.sdaPull = true ∧
        t.ap = true ∧ t.inputs = rest)

/-! ### Transactions -/

/-- 40_protocol_fsm.md section 5 (R130, derived in the spec), as bus turns (logs 1 and 2): the write transaction, from any state in
which START is enabled.
The master sees its own bits and an ACK after every byte; every byte lands at its index modulo N, the last write
winning; nothing else of the file changes. -/
def Obligations.WriteTransactionStoresItsBytesAndAcksEach : Prop :=
  ∀ (s : State) (p : Byte) (ds : List Byte),
    s.ConditionReady → Memory.wf s.params s.rf = true → s.inputs = turns (writeTranscript s.sa p ds) →
    let index := fun j => (p.toNat % s.n + j) % s.n
    ∃ k t levels, observe k s = some (t, levels) ∧ t.Finished ∧
      (∀ (j : Nat) (hj : j < ds.length), (∀ l, j < l → l < ds.length → index l ≠ index j) →
        t.rfByte (index j) = ds[j]) ∧
      (∀ i, (∀ j, j < ds.length → i ≠ index j) → t.rfByte i = s.rfByte i) ∧
      t.ptr.toNat = (if ds = [] then p.toNat % s.n else index (ds.length - 1)) ∧
      t.st = (if ds = [] then writeData else postWriteAck) ∧ t.ap = false ∧ t.ovfEn = true ∧ t.stopFlag = true ∧
      levels = (writeAddrByte s.sa :: p :: ds).flatMap (fun x => bitsMsbFirst x ++ [false])

/-- 40_protocol_fsm.md section 5 (R131, derived in the spec), as bus turns (logs 1 and 2): the read transaction of `m + 1` bytes,
from any state in which START is enabled. The master sees the ACK of its address byte and then the bytes from the pointer on, in order, as many
as it asks for; the pointer ends at the last of them, the file is as before, and the block is idle. -/
def Obligations.ReadTransactionSendsTheBytesFromThePointerOn : Prop :=
  ∀ (s : State) (m : Nat),
    s.ConditionReady → s.ptr.toNat < s.n → s.inputs = turns (readTranscript s.sa m) →
    ∃ k t levels, observe k s = some (t, levels) ∧ t.Finished ∧ t.Idle ∧ t.rf = s.rf ∧
      t.ptr.toNat = (s.ptr.toNat + m) % s.n ∧
      levels =
        bitsMsbFirst (readAddrByte s.sa) ++ [false] ++
        (List.range (m + 1)).flatMap (fun j => bitsMsbFirst (s.rfByte ((s.ptr.toNat + j) % s.n)) ++ [decide (j = m)])

/-- 40_protocol_fsm.md section 5 (R133, derived in the spec), on the transcript PTRREAD of 30_encoding.md section 7, as bus turns
(logs 1 and 2): a write of
the pointer byte alone, a repeated START and a read of `m + 1` bytes, from any state in which START is enabled. The read
starts at the pointer byte modulo N, whatever the pointer was. -/
def Obligations.PointerReadSendsTheBytesFromTheGivenPointerOn : Prop :=
  ∀ (s : State) (p : Byte) (m : Nat),
    s.ConditionReady → s.inputs = turns (ptrReadTranscript s.sa p m) →
    ∃ k t levels, observe k s = some (t, levels) ∧ t.Finished ∧ t.Idle ∧ t.rf = s.rf ∧
      t.ptr.toNat = (p.toNat % s.n + m) % s.n ∧
      levels =
        bitsMsbFirst (writeAddrByte s.sa) ++ [false] ++ bitsMsbFirst p ++ [false] ++
        bitsMsbFirst (readAddrByte s.sa) ++ [false] ++
        (List.range (m + 1)).flatMap
          (fun j => bitsMsbFirst (s.rfByte ((p.toNat % s.n + j) % s.n)) ++ [decide (j = m)])

/-- 40_protocol_fsm.md section 5 (R132, derived in the spec), as bus turns (logs 1 and 2): a transaction to another address, with
whatever the master does up to the next START. Pointer and file are as before, the block ends idle, and every level the
master sees is the one it drove, so it sees no ACK. -/
def Obligations.TransactionToAnotherAddressHasNoEffect : Prop :=
  ∀ (s : State) (a : BitVec 7) (rw : Bool) (actions : List (BitVec 2)),
    s.ConditionReady → a ≠ s.sa → 0b10#2 ∉ actions →
    s.inputs = turns (tokS ++ tokWB (a ++ BitVec.ofBool rw) ++ actions) →
    ∃ k t levels, observe k s = some (t, levels) ∧ t.Finished ∧ t.ptr = s.ptr ∧ t.rf = s.rf ∧ t.Idle ∧
      levels =
        bitsMsbFirst (a ++ BitVec.ofBool rw) ++ [true] ++
        actions.filterMap (fun c => if c.getLsbD 1 then none else some (c.getLsbD 0))

/-! ### Transcripts with application tokens -/

/-- 30_encoding.md section 7 (R96, derived in the spec), in the model's form of a transcript (logs 1 and 2), from an invariant
state: the pending event, if there is one, is handled before the next entry, be it a bus action or an application token,
and at the end of the transcript. -/
def Obligations.TranscriptHandlesThePendingEventBeforeItsNextEntry : Prop :=
  ∀ s, s.Inv → s.rst = false →
    ∃ u, (s.sclPull = true → exec s.pass s = .next u) ∧ (s.sclPull = false → u = s) ∧ u.sclPull = false ∧
      (∀ cmd idx w ts, s.inputs = schedule (.app cmd idx w :: ts) →
        andThen (step s) step = exec (decodeCommand cmd idx w) { u with inputs := schedule ts }) ∧
      (∀ c ts, s.inputs = schedule (.act c :: ts) →
        (if s.sclPull then andThen (step s) step else step s) = exec (decodeAction c) { u with inputs := schedule ts }) ∧
      (s.inputs = schedule [] → step s = .next u)

/-- 30_encoding.md section 7 (R96) and 20_memory.md section 4 (R63, both derived in the spec), on the shape of program P4 of
95_test_vectors.md, as a transcript (logs 1 and 2): while the block sends a byte, `RB+`, any application operation, `RB+`,
`RB-`, `P`. The byte after the operation was loaded before it, so the master receives it as it was; the byte after that
one is loaded from the file the operation left. -/
def Obligations.OperationBetweenTwoReadBytesLeavesTheLoadedByte : Prop :=
  ∀ (s : State) (i : Instr),
    s.ClockReady → s.st = readAckPoll → s.ap = false → s.sdaOe = true → s.ovfEn = true → s.cnt = 8 →
    (∃ cmd idx w, encode i = .command cmd idx w) →
    s.inputs = schedule (tokBus tokRBack ++ tokApp i ++ tokBus (tokRBack ++ tokRBnack ++ tokP)) →
    ∃ v k t levels, exec i s = .next v ∧ observe k s = some (t, levels) ∧ t.Finished ∧ t.Idle ∧
      t.rf = v.rf ∧ t.rdata = v.rdata ∧ t.err = v.err ∧ t.ptr.toNat = (s.ptr.toNat + 2) % s.n ∧
      levels =
        bitsMsbFirst s.sr ++ [false] ++
        bitsMsbFirst (s.rfByte ((s.ptr.toNat + 1) % s.n)) ++ [false] ++
        bitsMsbFirst (v.rfByte ((s.ptr.toNat + 2) % s.n)) ++ [true]
end

