-- ==== Sys2Proof/Laws/State.lean ====
section
/-!
SUPPORT. What each update of the state does to each field: one lemma per field per update, true by definition.
-/

namespace Sys2Proof.Machine

variable (s : State)

/-! ### goIdle -/

@[simp] theorem State.goIdle_params : (s.goIdle).params = s.params := rfl
@[simp] theorem State.goIdle_st : (s.goIdle).st = awaitAddress := rfl
@[simp] theorem State.goIdle_ptr : (s.goIdle).ptr = s.ptr := rfl
@[simp] theorem State.goIdle_ap : (s.goIdle).ap = false := rfl
@[simp] theorem State.goIdle_rf : (s.goIdle).rf = s.rf := rfl
@[simp] theorem State.goIdle_sa : (s.goIdle).sa = s.sa := rfl
@[simp] theorem State.goIdle_sr : (s.goIdle).sr = s.sr := rfl
@[simp] theorem State.goIdle_cnt : (s.goIdle).cnt = 8 := rfl
@[simp] theorem State.goIdle_ovfEn : (s.goIdle).ovfEn = false := rfl
@[simp] theorem State.goIdle_sdaOe : (s.goIdle).sdaOe = false := rfl
@[simp] theorem State.goIdle_startPend : (s.goIdle).startPend = s.startPend := rfl
@[simp] theorem State.goIdle_ovfPend : (s.goIdle).ovfPend = s.ovfPend := rfl
@[simp] theorem State.goIdle_stopFlag : (s.goIdle).stopFlag = s.stopFlag := rfl
@[simp] theorem State.goIdle_rdata : (s.goIdle).rdata = s.rdata := rfl
@[simp] theorem State.goIdle_err : (s.goIdle).err = s.err := rfl
@[simp] theorem State.goIdle_line : (s.goIdle).line = s.line := rfl
@[simp] theorem State.goIdle_rst : (s.goIdle).rst = s.rst := rfl
@[simp] theorem State.goIdle_cfgAddr : (s.goIdle).cfgAddr = s.cfgAddr := rfl
@[simp] theorem State.goIdle_inputs : (s.goIdle).inputs = s.inputs := rfl

/-! ### armAck -/

@[simp] theorem State.armAck_params : (s.armAck).params = s.params := rfl
@[simp] theorem State.armAck_st : (s.armAck).st = s.st := rfl
@[simp] theorem State.armAck_ptr : (s.armAck).ptr = s.ptr := rfl
@[simp] theorem State.armAck_ap : (s.armAck).ap = true := rfl
@[simp] theorem State.armAck_rf : (s.armAck).rf = s.rf := rfl
@[simp] theorem State.armAck_sa : (s.armAck).sa = s.sa := rfl
@[simp] theorem State.armAck_sr : (s.armAck).sr = 0 := rfl
@[simp] theorem State.armAck_cnt : (s.armAck).cnt = 1 := rfl
@[simp] theorem State.armAck_ovfEn : (s.armAck).ovfEn = s.ovfEn := rfl
@[simp] theorem State.armAck_sdaOe : (s.armAck).sdaOe = true := rfl
@[simp] theorem State.armAck_startPend : (s.armAck).startPend = s.startPend := rfl
@[simp] theorem State.armAck_ovfPend : (s.armAck).ovfPend = s.ovfPend := rfl
@[simp] theorem State.armAck_stopFlag : (s.armAck).stopFlag = s.stopFlag := rfl
@[simp] theorem State.armAck_rdata : (s.armAck).rdata = s.rdata := rfl
@[simp] theorem State.armAck_err : (s.armAck).err = s.err := rfl
@[simp] theorem State.armAck_line : (s.armAck).line = s.line := rfl
@[simp] theorem State.armAck_rst : (s.armAck).rst = s.rst := rfl
@[simp] theorem State.armAck_cfgAddr : (s.armAck).cfgAddr = s.cfgAddr := rfl
@[simp] theorem State.armAck_inputs : (s.armAck).inputs = s.inputs := rfl

/-! ### endAck -/

@[simp] theorem State.endAck_params : (s.endAck).params = s.params := rfl
@[simp] theorem State.endAck_st : (s.endAck).st = s.st := rfl
@[simp] theorem State.endAck_ptr : (s.endAck).ptr = s.ptr := rfl
@[simp] theorem State.endAck_ap : (s.endAck).ap = false := rfl
@[simp] theorem State.endAck_rf : (s.endAck).rf = s.rf := rfl
@[simp] theorem State.endAck_sa : (s.endAck).sa = s.sa := rfl
@[simp] theorem State.endAck_sr : (s.endAck).sr = s.sr := rfl
@[simp] theorem State.endAck_cnt : (s.endAck).cnt = 8 := rfl
@[simp] theorem State.endAck_ovfEn : (s.endAck).ovfEn = s.ovfEn := rfl
@[simp] theorem State.endAck_sdaOe : (s.endAck).sdaOe = false := rfl
@[simp] theorem State.endAck_startPend : (s.endAck).startPend = s.startPend := rfl
@[simp] theorem State.endAck_ovfPend : (s.endAck).ovfPend = s.ovfPend := rfl
@[simp] theorem State.endAck_stopFlag : (s.endAck).stopFlag = s.stopFlag := rfl
@[simp] theorem State.endAck_rdata : (s.endAck).rdata = s.rdata := rfl
@[simp] theorem State.endAck_err : (s.endAck).err = s.err := rfl
@[simp] theorem State.endAck_line : (s.endAck).line = s.line := rfl
@[simp] theorem State.endAck_rst : (s.endAck).rst = s.rst := rfl
@[simp] theorem State.endAck_cfgAddr : (s.endAck).cfgAddr = s.cfgAddr := rfl
@[simp] theorem State.endAck_inputs : (s.endAck).inputs = s.inputs := rfl

/-! ### loadTx -/

@[simp] theorem State.loadTx_params (b : Byte) : (s.loadTx b).params = s.params := rfl
@[simp] theorem State.loadTx_st (b : Byte) : (s.loadTx b).st = readAckPoll := rfl
@[simp] theorem State.loadTx_ptr (b : Byte) : (s.loadTx b).ptr = s.ptr := rfl
@[simp] theorem State.loadTx_ap (b : Byte) : (s.loadTx b).ap = false := rfl
@[simp] theorem State.loadTx_rf (b : Byte) : (s.loadTx b).rf = s.rf := rfl
@[simp] theorem State.loadTx_sa (b : Byte) : (s.loadTx b).sa = s.sa := rfl
@[simp] theorem State.loadTx_sr (b : Byte) : (s.loadTx b).sr = b := rfl
@[simp] theorem State.loadTx_cnt (b : Byte) : (s.loadTx b).cnt = 8 := rfl
@[simp] theorem State.loadTx_ovfEn (b : Byte) : (s.loadTx b).ovfEn = s.ovfEn := rfl
@[simp] theorem State.loadTx_sdaOe (b : Byte) : (s.loadTx b).sdaOe = true := rfl
@[simp] theorem State.loadTx_startPend (b : Byte) : (s.loadTx b).startPend = s.startPend := rfl
@[simp] theorem State.loadTx_ovfPend (b : Byte) : (s.loadTx b).ovfPend = s.ovfPend := rfl
@[simp] theorem State.loadTx_stopFlag (b : Byte) : (s.loadTx b).stopFlag = s.stopFlag := rfl
@[simp] theorem State.loadTx_rdata (b : Byte) : (s.loadTx b).rdata = s.rdata := rfl
@[simp] theorem State.loadTx_err (b : Byte) : (s.loadTx b).err = s.err := rfl
@[simp] theorem State.loadTx_line (b : Byte) : (s.loadTx b).line = s.line := rfl
@[simp] theorem State.loadTx_rst (b : Byte) : (s.loadTx b).rst = s.rst := rfl
@[simp] theorem State.loadTx_cfgAddr (b : Byte) : (s.loadTx b).cfgAddr = s.cfgAddr := rfl
@[simp] theorem State.loadTx_inputs (b : Byte) : (s.loadTx b).inputs = s.inputs := rfl

/-! ### answer -/

@[simp] theorem State.answer_params (d : Word) (e : BitVec 2) : (s.answer d e).params = s.params := rfl
@[simp] theorem State.answer_st (d : Word) (e : BitVec 2) : (s.answer d e).st = s.st := rfl
@[simp] theorem State.answer_ptr (d : Word) (e : BitVec 2) : (s.answer d e).ptr = s.ptr := rfl
@[simp] theorem State.answer_ap (d : Word) (e : BitVec 2) : (s.answer d e).ap = s.ap := rfl
@[simp] theorem State.answer_rf (d : Word) (e : BitVec 2) : (s.answer d e).rf = s.rf := rfl
@[simp] theorem State.answer_sa (d : Word) (e : BitVec 2) : (s.answer d e).sa = s.sa := rfl
@[simp] theorem State.answer_sr (d : Word) (e : BitVec 2) : (s.answer d e).sr = s.sr := rfl
@[simp] theorem State.answer_cnt (d : Word) (e : BitVec 2) : (s.answer d e).cnt = s.cnt := rfl
@[simp] theorem State.answer_ovfEn (d : Word) (e : BitVec 2) : (s.answer d e).ovfEn = s.ovfEn := rfl
@[simp] theorem State.answer_sdaOe (d : Word) (e : BitVec 2) : (s.answer d e).sdaOe = s.sdaOe := rfl
@[simp] theorem State.answer_startPend (d : Word) (e : BitVec 2) : (s.answer d e).startPend = s.startPend := rfl
@[simp] theorem State.answer_ovfPend (d : Word) (e : BitVec 2) : (s.answer d e).ovfPend = s.ovfPend := rfl
@[simp] theorem State.answer_stopFlag (d : Word) (e : BitVec 2) : (s.answer d e).stopFlag = s.stopFlag := rfl
@[simp] theorem State.answer_rdata (d : Word) (e : BitVec 2) : (s.answer d e).rdata = d := rfl
@[simp] theorem State.answer_err (d : Word) (e : BitVec 2) : (s.answer d e).err = e := rfl
@[simp] theorem State.answer_line (d : Word) (e : BitVec 2) : (s.answer d e).line = s.line := rfl
@[simp] theorem State.answer_rst (d : Word) (e : BitVec 2) : (s.answer d e).rst = s.rst := rfl
@[simp] theorem State.answer_cfgAddr (d : Word) (e : BitVec 2) : (s.answer d e).cfgAddr = s.cfgAddr := rfl
@[simp] theorem State.answer_inputs (d : Word) (e : BitVec 2) : (s.answer d e).inputs = s.inputs := rfl

/-! ### setRfByte -/

@[simp] theorem State.setRfByte_params (i : Nat) (b : Byte) : (s.setRfByte i b).params = s.params := rfl
@[simp] theorem State.setRfByte_st (i : Nat) (b : Byte) : (s.setRfByte i b).st = s.st := rfl
@[simp] theorem State.setRfByte_ptr (i : Nat) (b : Byte) : (s.setRfByte i b).ptr = s.ptr := rfl
@[simp] theorem State.setRfByte_ap (i : Nat) (b : Byte) : (s.setRfByte i b).ap = s.ap := rfl
@[simp] theorem State.setRfByte_rf (i : Nat) (b : Byte) : (s.setRfByte i b).rf = Memory.write s.params s.rf i b := rfl
@[simp] theorem State.setRfByte_sa (i : Nat) (b : Byte) : (s.setRfByte i b).sa = s.sa := rfl
@[simp] theorem State.setRfByte_sr (i : Nat) (b : Byte) : (s.setRfByte i b).sr = s.sr := rfl
@[simp] theorem State.setRfByte_cnt (i : Nat) (b : Byte) : (s.setRfByte i b).cnt = s.cnt := rfl
@[simp] theorem State.setRfByte_ovfEn (i : Nat) (b : Byte) : (s.setRfByte i b).ovfEn = s.ovfEn := rfl
@[simp] theorem State.setRfByte_sdaOe (i : Nat) (b : Byte) : (s.setRfByte i b).sdaOe = s.sdaOe := rfl
@[simp] theorem State.setRfByte_startPend (i : Nat) (b : Byte) : (s.setRfByte i b).startPend = s.startPend := rfl
@[simp] theorem State.setRfByte_ovfPend (i : Nat) (b : Byte) : (s.setRfByte i b).ovfPend = s.ovfPend := rfl
@[simp] theorem State.setRfByte_stopFlag (i : Nat) (b : Byte) : (s.setRfByte i b).stopFlag = s.stopFlag := rfl
@[simp] theorem State.setRfByte_rdata (i : Nat) (b : Byte) : (s.setRfByte i b).rdata = s.rdata := rfl
@[simp] theorem State.setRfByte_err (i : Nat) (b : Byte) : (s.setRfByte i b).err = s.err := rfl
@[simp] theorem State.setRfByte_line (i : Nat) (b : Byte) : (s.setRfByte i b).line = s.line := rfl
@[simp] theorem State.setRfByte_rst (i : Nat) (b : Byte) : (s.setRfByte i b).rst = s.rst := rfl
@[simp] theorem State.setRfByte_cfgAddr (i : Nat) (b : Byte) : (s.setRfByte i b).cfgAddr = s.cfgAddr := rfl
@[simp] theorem State.setRfByte_inputs (i : Nat) (b : Byte) : (s.setRfByte i b).inputs = s.inputs := rfl

/-! ### clocked -/

@[simp] theorem State.clocked_params (b : Bool) : (s.clocked b).params = s.params := rfl
@[simp] theorem State.clocked_st (b : Bool) : (s.clocked b).st = s.st := rfl
@[simp] theorem State.clocked_ptr (b : Bool) : (s.clocked b).ptr = s.ptr := rfl
@[simp] theorem State.clocked_ap (b : Bool) : (s.clocked b).ap = s.ap := rfl
@[simp] theorem State.clocked_rf (b : Bool) : (s.clocked b).rf = s.rf := rfl
@[simp] theorem State.clocked_sa (b : Bool) : (s.clocked b).sa = s.sa := rfl
@[simp] theorem State.clocked_sr (b : Bool) : (s.clocked b).sr = shiftIn s.sr (s.sdaLine b) := rfl
@[simp] theorem State.clocked_cnt (b : Bool) : (s.clocked b).cnt = s.cntAfterClock := rfl
@[simp] theorem State.clocked_ovfEn (b : Bool) : (s.clocked b).ovfEn = s.ovfEn := rfl
@[simp] theorem State.clocked_sdaOe (b : Bool) : (s.clocked b).sdaOe = s.sdaOe := rfl
@[simp] theorem State.clocked_startPend (b : Bool) : (s.clocked b).startPend = s.startPend := rfl
@[simp] theorem State.clocked_ovfPend (b : Bool) : (s.clocked b).ovfPend = s.ovfAfterClock := rfl
@[simp] theorem State.clocked_stopFlag (b : Bool) : (s.clocked b).stopFlag = s.stopFlag := rfl
@[simp] theorem State.clocked_rdata (b : Bool) : (s.clocked b).rdata = s.rdata := rfl
@[simp] theorem State.clocked_err (b : Bool) : (s.clocked b).err = s.err := rfl
@[simp] theorem State.clocked_line (b : Bool) : (s.clocked b).line = s.sdaLine b := rfl
@[simp] theorem State.clocked_rst (b : Bool) : (s.clocked b).rst = s.rst := rfl
@[simp] theorem State.clocked_cfgAddr (b : Bool) : (s.clocked b).cfgAddr = s.cfgAddr := rfl
@[simp] theorem State.clocked_inputs (b : Bool) : (s.clocked b).inputs = s.inputs := rfl

end Sys2Proof.Machine
end

