-- ==== Sys2Proof/Laws/Memory.lean ====
section
/-!
SUPPORT. The register file: a read after a write gives the byte written and leaves every other byte alone, and every write
keeps the canonical form.
-/

namespace Sys2Proof.Machine

variable {p : Params} {m : Memory} {c : Host.Cell} {i j : Nat} {b : Byte}

theorem Memory.wf_cons :
    Memory.wf p (c :: m) = true ↔
      (∀ d ∈ m, c.1 < d.1) ∧ c.1 < p.n ∧ c.2 ≠ Memory.unlisted p c.1 ∧ Memory.wf p m = true := by
  simp only [Memory.wf, Bool.and_eq_true, decide_eq_true_eq, List.pairwise_cons, List.all_cons, bne_iff_ne]
  tauto

@[simp] theorem Memory.wf_nil : Memory.wf p [] = true := rfl

theorem Memory.lookup_none (h : ∀ d ∈ m, i < d.1) : Memory.lookup m i = none := by
  induction m with
  | nil => rfl
  | cons d m ih =>
    have hd := h d (by simp)
    rw [Memory.lookup, if_neg (by omega)]
    exact ih (fun e he => h e (by simp [he]))

@[simp] theorem Memory.read_nil : Memory.read p [] i = Memory.unlisted p i := rfl

theorem Memory.read_cons : Memory.read p (c :: m) i = if c.1 = i then c.2 else Memory.read p m i := by
  simp only [Memory.read, Memory.lookup]
  split <;> rfl

theorem Memory.read_of_lt (h : ∀ d ∈ m, i < d.1) : Memory.read p m i = Memory.unlisted p i := by
  simp [Memory.read, Memory.lookup_none h]

/-- A write answers the byte written at its index and every other byte as before. -/
theorem Memory.read_write (h : Memory.wf p m = true) :
    Memory.read p (Memory.write p m i b) j = if j = i then b else Memory.read p m j := by
  induction m with
  | nil =>
    simp only [Memory.write]
    split <;> simp_all [Memory.read_cons, eq_comm]
  | cons c m ih =>
    obtain ⟨hlt, -, -, hm⟩ := Memory.wf_cons.1 h
    simp only [Memory.write]
    split
    · next hic =>
      have hi : ∀ d ∈ c :: m, i < d.1 := by
        intro d hd
        rcases List.mem_cons.1 hd with rfl | hd
        · exact hic
        · have := hlt d hd; omega
      split
      · next hb =>
        split
        · next hj => rw [hj, hb, Memory.read_of_lt hi]
        · rfl
      · simp only [Memory.read_cons (c := (i, b)), eq_comm]
    · split
      · next hnlt hic =>
        split
        · next hb =>
          rw [Memory.read_cons]
          split
          · next hj => rw [hj, hb, Memory.read_of_lt (fun d hd => hic ▸ hlt d hd)]
          · next hj => rw [if_neg (by omega)]
        · simp only [Memory.read_cons, ← hic, eq_comm]
          split <;> rfl
      · next hnlt hne =>
        rw [Memory.read_cons, Memory.read_cons, ih hm]
        by_cases hcj : c.1 = j
        · rw [if_pos hcj, if_pos hcj, if_neg (by omega)]
        · rw [if_neg hcj, if_neg hcj]

theorem Memory.mem_write {d : Host.Cell} (h : d ∈ Memory.write p m i b) : d = (i, b) ∨ d ∈ m := by
  induction m with
  | nil =>
    simp only [Memory.write] at h
    split at h <;> simp_all
  | cons c m ih =>
    simp only [Memory.write] at h
    split at h
    · split at h <;> simp_all
    · split at h
      · split at h <;> simp_all
        tauto
      · rcases List.mem_cons.1 h with rfl | h
        · simp
        · rcases ih h with h | h <;> simp [h]

/-- A write below N keeps the canonical form. -/
theorem Memory.wf_write (h : Memory.wf p m = true) (hi : i < p.n) : Memory.wf p (Memory.write p m i b) = true := by
  induction m with
  | nil =>
    simp only [Memory.write]
    split
    · rfl
    · exact Memory.wf_cons.2 ⟨by simp, hi, ‹_›, rfl⟩
  | cons c m ih =>
    have hc := Memory.wf_cons.1 h
    simp only [Memory.write]
    split
    · next hic =>
      split
      · exact h
      · refine Memory.wf_cons.2 ⟨fun d hd => ?_, hi, ‹_›, h⟩
        rcases List.mem_cons.1 hd with rfl | hd
        · exact hic
        · exact hic.trans (hc.1 d hd)
    · split
      · next hic =>
        split
        · exact hc.2.2.2
        · exact Memory.wf_cons.2 ⟨fun d hd => hic ▸ hc.1 d hd, hi, ‹_›, hc.2.2.2⟩
      · next hnlt hne =>
        refine Memory.wf_cons.2 ⟨fun d hd => ?_, hc.2.1, hc.2.2.1, ih hc.2.2.2⟩
        rcases Memory.mem_write hd with rfl | hd
        · simp only; omega
        · exact hc.1 d hd

/-! ### The same of the state's register file -/

variable {s : State}

theorem State.rfByte_setRfByte (h : Memory.wf s.params s.rf = true) :
    (s.setRfByte i b).rfByte j = if j = i then b else s.rfByte j :=
  Memory.read_write h

theorem State.wf_setRfByte (h : Memory.wf s.params s.rf = true) (hi : i < s.n) :
    Memory.wf (s.setRfByte i b).params (s.setRfByte i b).rf = true :=
  Memory.wf_write h hi

@[simp] theorem State.n_setRfByte : (s.setRfByte i b).n = s.n := rfl

/-- `rfByte` depends on the parameters and the file alone. -/
theorem State.rfByte_congr {t : State} (hp : t.params = s.params) (hr : t.rf = s.rf) : t.rfByte i = s.rfByte i := by
  simp [State.rfByte, hp, hr]

/-- Equal memories are equal data: two canonical lists that read alike are the same list. -/
theorem Memory.ext_of_read {m' : Memory} (h : Memory.wf p m = true) (h' : Memory.wf p m' = true)
    (hr : ∀ i, Memory.read p m i = Memory.read p m' i) : m = m' := by
  induction m generalizing m' with
  | nil =>
    cases m' with
    | nil => rfl
    | cons c m' =>
      have hc := Memory.wf_cons.1 h'
      have := hr c.1
      simp [Memory.read_cons] at this
      exact absurd this.symm hc.2.2.1
  | cons c m ih =>
    have hc := Memory.wf_cons.1 h
    cases m' with
    | nil =>
      have := hr c.1
      simp [Memory.read_cons] at this
      exact absurd this hc.2.2.1
    | cons c' m' =>
      have hc' := Memory.wf_cons.1 h'
      have hcc : c.1 = c'.1 := by
        rcases Nat.lt_trichotomy c.1 c'.1 with hlt | heq | hlt
        · have := hr c.1
          rw [Memory.read_cons, if_pos rfl, Memory.read_of_lt] at this
          · exact absurd this hc.2.2.1
          · intro d hd
            rcases List.mem_cons.1 hd with rfl | hd
            · exact hlt
            · exact hlt.trans (hc'.1 d hd)
        · exact heq
        · have := hr c'.1
          rw [Memory.read_of_lt, Memory.read_cons, if_pos rfl] at this
          · exact absurd this.symm hc'.2.2.1
          · intro d hd
            rcases List.mem_cons.1 hd with rfl | hd
            · exact hlt
            · exact hlt.trans (hc.1 d hd)
      have hb : c.2 = c'.2 := by
        have := hr c.1
        rwa [Memory.read_cons, if_pos rfl, Memory.read_cons, if_pos hcc.symm] at this
      have hm : m = m' := by
        refine ih hc.2.2.2 hc'.2.2.2 (fun i => ?_)
        have := hr i
        rw [Memory.read_cons, Memory.read_cons] at this
        by_cases hi : c.1 = i
        · rw [Memory.read_of_lt (fun d hd => hi ▸ hc.1 d hd),
            Memory.read_of_lt (fun d hd => hi ▸ hcc ▸ hc'.1 d hd)]
        · rwa [if_neg hi, if_neg (hcc ▸ hi)] at this
      rw [hm, Prod.ext hcc hb]

end Sys2Proof.Machine
end

