-- ==== Sys2Proof/Laws/Frames.lean ====
section
/-!
SUPPORT. What each shared operation can answer: one lemma per operation, saying everything that follows from its answering
a next state.
-/

namespace Sys2Proof

theorem Params.n_pos (p : Params) : 0 < p.n := Nat.succ_pos _

theorem Params.n_le (p : Params) : p.n ≤ 256 := p.lastIndex.isLt

end Sys2Proof

namespace Sys2Proof.Machine

variable {s t : State} {k : Result} {f : State → Result} {i : Nat} {b : Byte}

/-! ### Pointers -/

theorem State.n_pos (s : State) : 0 < s.n := Params.n_pos _

theorem State.n_le (s : State) : s.n ≤ 256 := Params.n_le _

/-- The pointer the pointer byte or an increment gives is the number modulo N. -/
theorem State.toNat_wrapPtr (s : State) (p : Nat) : (wrapPtr s.n p).toNat = p % s.n := by
  have h := Nat.mod_lt p s.n_pos
  have := s.n_le
  simp only [wrapPtr, BitVec.toNat_ofNat]
  omega

theorem State.wrapPtr_lt (s : State) (p : Nat) : (wrapPtr s.n p).toNat < s.n :=
  s.toNat_wrapPtr p ▸ Nat.mod_lt p s.n_pos

theorem State.toNat_incPtr (s : State) : s.incPtr.toNat = (s.ptr.toNat + 1) % s.n := s.toNat_wrapPtr _

theorem State.incPtr_lt (s : State) : s.incPtr.toNat < s.n := s.wrapPtr_lt _

/-! ### Sequencing and guards -/

@[simp] theorem andThen_next : andThen (.next s) f = f s := rfl

@[simp] theorem andThen_fault (r : Fault) : andThen (.fault r) f = .fault r := rfl

@[simp] theorem andThen_refused (r : Refusal) : andThen (.refused r) f = .refused r := rfl

theorem andThen_eq_next : andThen k f = .next t ↔ ∃ u, k = .next u ∧ f u = .next t := by
  cases k <;> simp [andThen]

theorem running_eq_next : running s k = .next t ↔ s.rst = false ∧ k = .next t := by
  unfold running
  cases s.rst <;> simp

theorem running_of (h : s.rst = false) : running s k = k := by simp [running, h]

theorem startFrame_eq_next :
    startFrame s f = .next t ↔
      s.rst = false ∧ s.startPend = true ∧ f { s with startPend := false, ovfPend := false } = .next t := by
  unfold startFrame
  rw [running_eq_next]
  cases s.startPend <;> simp

theorem ovfSelected_iff {st : BitVec 3} {ap : Bool} :
    s.ovfSelected st ap = true ↔ s.ovfPend = true ∧ s.startPend = false ∧ s.st = st ∧ s.ap = ap := by
  simp [State.ovfSelected, and_assoc]

theorem ovfFrame_eq_next {st : BitVec 3} {ap : Bool} :
    ovfFrame st ap s f = .next t ↔
      s.rst = false ∧ s.ovfPend = true ∧ s.startPend = false ∧ s.st = st ∧ s.ap = ap ∧
        ∃ u, f s = .next u ∧ t = { u with ovfPend := false } := by
  unfold ovfFrame
  rw [running_eq_next]
  by_cases h : s.ovfSelected st ap = true
  · rw [if_pos h, andThen_eq_next]
    obtain ⟨ho, hs, hst, hap⟩ := ovfSelected_iff.1 h
    simp only [Host.Outcome.next.injEq]
    constructor
    · rintro ⟨hr, u, hu, rfl⟩
      exact ⟨hr, ho, hs, hst, hap, u, hu, rfl⟩
    · rintro ⟨hr, -, -, -, -, u, hu, rfl⟩
      exact ⟨hr, u, hu, rfl⟩
  · rw [if_neg h]
    have := mt ovfSelected_iff.2 h
    simp only [reduceCtorEq, and_false, false_iff]
    tauto

/-- An enabled OVF pass is its body followed by its exit. -/
theorem ovfFrame_of {st : BitVec 3} {ap : Bool} (hr : s.rst = false) (hs : s.startPend = false)
    (ho : s.ovfPend = true) (hst : s.st = st) (hap : s.ap = ap) :
    ovfFrame st ap s f = andThen (f s) (fun t => .next { t with ovfPend := false }) := by
  rw [ovfFrame, running_of hr, if_pos (ovfSelected_iff.2 ⟨ho, hs, hst, hap⟩)]

theorem rawRead_eq_next {g : Byte → Result} :
    rawRead s g = .next t ↔ s.ptr.toNat < s.n ∧ g (s.rfByte s.ptr.toNat) = .next t := by
  unfold rawRead
  split <;> simp_all

theorem rawWrite_eq_next :
    rawWrite s b f = .next t ↔ s.ptr.toNat < s.n ∧ f (s.setRfByte s.ptr.toNat b) = .next t := by
  unfold rawWrite
  split <;> simp_all

theorem busFrame_eq_next : busFrame s k = .next t ↔ s.rst = false ∧ s.sclPull = false ∧ k = .next t := by
  unfold busFrame
  rw [running_eq_next]
  cases s.sclPull <;> simp

theorem conditionFrame_eq_next :
    conditionFrame s k = .next t ↔ s.rst = false ∧ s.sclPull = false ∧ s.sdaPull = false ∧ k = .next t := by
  unfold conditionFrame
  rw [busFrame_eq_next]
  cases s.sdaPull <;> simp

theorem appFrame_eq_next {idx : Byte} {w : Nat} {u : State} :
    appFrame s idx w u = .next t ↔
      s.rst = false ∧ t = if idx.toNat + w > s.n then s.answer 0 1 else u := by
  unfold appFrame
  rw [running_eq_next, Host.Outcome.next.injEq]
  exact and_congr_right fun _ => eq_comm

theorem sclPull_iff : s.sclPull = true ↔ s.startPend = true ∨ s.ovfPend = true := by simp [State.sclPull]

theorem sclPull_eq_false : s.sclPull = false ↔ s.startPend = false ∧ s.ovfPend = false := by simp [State.sclPull]

end Sys2Proof.Machine
end

