-- ==== Sys2Proof/Laws/Step.lean ====
section
/-!
SUPPORT. What a step is, turn by turn: the pass the engine takes, the key it forms, and the step each turn of the list
gives.
-/

namespace Sys2Proof.Machine

variable {s t : State} {rest : List Input}

/-- A START key decodes to the START row, with the bits the row ignores. -/
theorem decode_startKey (st : BitVec 3) (ap : Bool) : decodeEvent (startKey st ap) = .ok (.start st ap) := by
  revert st ap; decide

/-- An OVF key decodes to the row of its pair. -/
theorem decode_ovfKey (st : BitVec 3) (ap : Bool) : decodeEvent (ovfKey st ap) = .ok (decodeOvf st ap) := by
  revert st ap; decide

/-- The key the engine forms always decodes. -/
theorem decode_key (s : State) :
    decode (.event s.key) = .ok (if s.startPend then .start s.st s.ap else decodeOvf s.st s.ap) := by
  cases h : s.startPend <;> simp [State.key, decode, h, decode_startKey, decode_ovfKey]

/-- The pass the engine takes is the meaning of the instruction its key decodes to. -/
theorem exec_key (s t : State) :
    exec (if s.startPend then .start s.st s.ap else decodeOvf s.st s.ap) t =
      if s.startPend then execStart s.st s.ap t else exec (decodeOvf s.st s.ap) t := by
  cases s.startPend <;> rfl

theorem enginePass_eq (s : State) :
    enginePass s = exec (if s.startPend then .start s.st s.ap else decodeOvf s.st s.ap) s := by
  unfold enginePass decodeOvf
  cases s.startPend
  · simp only [Bool.false_eq_true, if_false]
    split <;> first
      | rfl
      | (simp only [*]; rfl)
  · rfl

theorem bitVec3_cases (st : BitVec 3) :
    st = 0 ∨ st = 1 ∨ st = 2 ∨ st = 3 ∨ st = 4 ∨ st = 5 ∨ st = 6 ∨ st = 7 := by
  revert st; decide

/-- Every OVF row is its body in the frame of its key (40_protocol_fsm.md R115), and where `ptr < N` the body completes. -/
theorem exec_decodeOvf (st : BitVec 3) (ap : Bool) (s : State) :
    ∃ f, exec (decodeOvf st ap) s = ovfFrame st ap s f ∧ (s.ptr.toNat < s.n → ∃ t, f s = .next t) := by
  rcases bitVec3_cases st with rfl | rfl | rfl | rfl | rfl | rfl | rfl | rfl <;> cases ap
  · refine ⟨_, (rfl : execOvfAwaitAddressByte s = _), fun h => ?_⟩
    exact ⟨_, rfl⟩
  · refine ⟨_, (rfl : execOvfAwaitAddressAck s = _), fun h => ?_⟩
    exact ⟨_, rfl⟩
  · refine ⟨_, (rfl : execOvfAwaitRegisterPointerByte s = _), fun h => ?_⟩
    exact ⟨_, rfl⟩
  · refine ⟨_, (rfl : execOvfAwaitRegisterPointerAck s = _), fun h => ?_⟩
    exact ⟨_, rfl⟩
  · refine ⟨_, (rfl : execOvfWriteDataByte s = _), fun h => ?_⟩
    rw [rawWrite, if_pos h]; exact ⟨_, rfl⟩
  · refine ⟨_, (rfl : execOvfWriteDataAck s = _), fun h => ?_⟩
    exact ⟨_, rfl⟩
  · refine ⟨_, (rfl : execOvfPostWriteAckByte s = _), fun h => ?_⟩
    by_cases hf : s.stopFlag = true
    · rw [if_pos hf]; exact ⟨_, rfl⟩
    · rw [if_neg hf, rawWrite, if_pos (by exact s.incPtr_lt)]; exact ⟨_, rfl⟩
  · refine ⟨_, (rfl : execOvfPostWriteAckAck s = _), fun h => ?_⟩
    exact ⟨_, rfl⟩
  · refine ⟨_, (rfl : execOvfReadDataPreByte s = _), fun h => ?_⟩
    exact ⟨_, rfl⟩
  · refine ⟨_, (rfl : execOvfReadDataPreAck s = _), fun h => ?_⟩
    rw [rawRead, if_pos h]; exact ⟨_, rfl⟩
  · refine ⟨_, (rfl : execOvfReadAckPollByte s = _), fun h => ?_⟩
    exact ⟨_, rfl⟩
  · refine ⟨_, (rfl : execOvfReadAckPollAck s = _), fun h => ?_⟩
    by_cases hb : s.sr.getLsbD 0 = true
    · rw [if_pos hb]; exact ⟨_, rfl⟩
    · rw [if_neg hb, rawRead, if_pos (by exact s.incPtr_lt)]; exact ⟨_, rfl⟩
  · refine ⟨_, (rfl : execOvfReservedState 6 false s = _), fun h => ?_⟩
    exact ⟨_, rfl⟩
  · refine ⟨_, (rfl : execOvfReservedState 6 true s = _), fun h => ?_⟩
    exact ⟨_, rfl⟩
  · refine ⟨_, (rfl : execOvfReservedState 7 false s = _), fun h => ?_⟩
    exact ⟨_, rfl⟩
  · refine ⟨_, (rfl : execOvfReservedState 7 true s = _), fun h => ?_⟩
    exact ⟨_, rfl⟩

/-- A step in which the engine is ready takes its pass, whatever turn it was listed as. -/
theorem step_engine (h : fetch s = .code (.event s.key) t) :
    step s = exec (if s.startPend then .start s.st s.ap else decodeOvf s.st s.ap) t := by
  simp only [step, h, decode_key]

/-- A bus turn while no event is pending is the master's action. -/
theorem step_bus {c : BitVec 2} (hi : s.inputs = .bus c :: rest) (h : s.sclPull = false) :
    step s = exec (decodeAction c) { s with inputs := rest } := by
  simp [step, fetch, hi, busTurn, State.engineReady, h, decode]

/-- A bus turn while an event is pending waits: the engine takes its pass. -/
theorem step_bus_held {c : BitVec 2} (hi : s.inputs = .bus c :: rest) (hr : s.rst = false) (h : s.sclPull = true) :
    step s = enginePass s := by
  rw [enginePass_eq]
  exact step_engine (by simp [fetch, hi, busTurn, State.engineReady, h, hr])

/-- With no turn left, the engine takes the pass of a pending event. -/
theorem step_nil_pending (hi : s.inputs = []) (hr : s.rst = false) (h : s.sclPull = true) :
    step s = enginePass s := by
  rw [enginePass_eq]
  exact step_engine (by simp [fetch, hi, State.engineReady, h, hr])

/-- With no turn left and no event pending, the block waits. -/
theorem step_nil_quiet (hi : s.inputs = []) (h : s.sclPull = false) : step s = .next s := by
  simp [step, fetch, hi, State.engineReady, h]

/-- An application turn is the operation, whatever is pending. -/
theorem step_app {cmd : BitVec 4} {idx : Byte} {wdata : Word} (hi : s.inputs = .app cmd idx wdata :: rest) :
    step s = exec (decodeCommand cmd idx wdata) { s with inputs := rest } := by
  simp [step, fetch, hi, decode]

theorem clockAndSettle_eq_next {b : Bool} :
    clockAndSettle b s = .next t ↔ s.rst = false ∧ s.sclPull = false ∧ settle (s.clocked b) = .next t := by
  simp only [clockAndSettle, andThen_eq_next, execClock, busFrame_eq_next, Host.Outcome.next.injEq]
  constructor
  · rintro ⟨u, ⟨hr, hs, rfl⟩, h⟩
    exact ⟨hr, hs, h⟩
  · rintro ⟨hr, hs, h⟩
    exact ⟨_, ⟨hr, hs, rfl⟩, h⟩

theorem sendBits_cons_eq_next {b : Bool} {bs : List Bool} :
    sendBits (b :: bs) s = .next t ↔ ∃ u, clockAndSettle b s = .next u ∧ sendBits bs u = .next t := by
  simp [sendBits, andThen_eq_next]

/-- The next step of the placed state runs the instruction the encoded step decodes to (log 6). -/
theorem step_placed {e : Encoded} {i : Instr} (h : decode e = .ok i) (s : State) :
    ∃ t, step (s.placed e) = exec i t ∧ t.inputs = s.inputs ∧ t.params = s.params ∧ t.rf = s.rf ∧ t.ptr = s.ptr := by
  cases e with
  | command cmd idx wdata =>
    refine ⟨{ s.placed (.command cmd idx wdata) with inputs := s.inputs }, ?_, rfl, rfl, rfl, rfl⟩
    simp only [step, State.placed, fetch, h]
  | action c =>
    refine ⟨{ s.placed (.action c) with inputs := s.inputs }, ?_, rfl, rfl, rfl, rfl⟩
    simp only [step, State.placed, fetch, busTurn, State.engineReady, State.sclPull, Bool.or_self, Bool.false_and,
      Bool.false_eq_true, if_false, h]
  | wire b =>
    refine ⟨{ s.placed (.wire b) with inputs := s.inputs }, ?_, rfl, rfl, rfl, rfl⟩
    simp only [step, State.placed, fetch, busTurn, State.engineReady, State.sclPull, Bool.or_self, Bool.false_and,
      Bool.false_eq_true, if_false, h]
  | event key =>
    have hk : ∀ key : BitVec 6, (match decodeEvent key with
        | .ok _ => (key.getLsbD 4 || key.getLsbD 5) && ((if key.getLsbD 4 then startKey (key.extractLsb' 1 3) (key.getLsbD 0)
            else ovfKey (key.extractLsb' 1 3) (key.getLsbD 0)) == key)
        | .error _ => true) = true := by decide
    have := hk key
    simp only [decode] at h
    simp only [h, Bool.and_eq_true, beq_iff_eq] at this
    obtain ⟨hb, hkey⟩ := this
    have hr : (s.placed (.event key)).engineReady = true := by
      simpa [State.engineReady, State.sclPull, State.placed] using hb
    have hs : (s.placed (.event key)).key = key := hkey
    refine ⟨{ s.placed (.event key) with inputs := s.inputs }, ?_, rfl, rfl, rfl, rfl⟩
    have hf : fetch (s.placed (.event key)) = .code (.event key) { s.placed (.event key) with inputs := s.inputs } := by
      unfold fetch
      simp only [hs, hr, if_true]
      rfl
    simp only [step, hf, decode, h]

/-- What `withFetchWord` promises of a word the decoder reads. -/
theorem step_withFetchWord {nbits w : Nat} {i : Instr} (h : decodeTableWord nbits w = some i) (s : State) :
    ∃ t, step (s.withFetchWord nbits w) = exec i t ∧ t.inputs = s.inputs := by
  unfold decodeTableWord at h
  unfold State.withFetchWord
  cases hw : tableWord nbits w with
  | none => simp [hw] at h
  | some e =>
    simp only [hw] at h
    cases hd : decode e with
    | error why => simp [hd] at h
    | ok j =>
      simp only [hd, Option.some.injEq] at h
      subst h
      obtain ⟨t, ht, hi, -⟩ := step_placed hd s
      exact ⟨t, ht, hi⟩

end Sys2Proof.Machine
end

