-- ==== Sys2Proof/Laws/Effects.lean ====
section
/-!
SUPPORT. What a step of each agent can do, said once: if a pass, an application operation, a bus action or a wire byte answers
a next state, then one of the listed cases holds. Statements about every instruction are case analyses of these.
-/

namespace Sys2Proof.Machine

variable {i : Instr} {s t : State}

/-! ### Passes -/

/-- The possible effects of an enabled pass, with the conditions under which each occurs. -/
inductive PassEffect (s : State) : State → Prop where
  | start (hs : s.startPend = true) :
      PassEffect s { s with startPend := false, ovfPend := false, st := awaitAddress, ap := false, sdaOe := false,
                            cnt := 8, ovfEn := true }
  | idle (ho : s.ovfPend = true) (hs : s.startPend = false) : PassEffect s { s.goIdle with ovfPend := false }
  | ackAddress (ho : s.ovfPend = true) (hs : s.startPend = false) (ha : s.rxAddr = s.sa) :
      PassEffect s { s.armAck with st := if s.rxRw then readDataPre else awaitRegisterPointer, ovfPend := false }
  | pointer (ho : s.ovfPend = true) (hs : s.startPend = false) :
      PassEffect s { { s with ptr := wrapPtr s.n s.sr.toNat }.armAck with st := writeData, ovfPend := false }
  | endAck (ho : s.ovfPend = true) (hs : s.startPend = false)
      (hst : s.st = awaitRegisterPointer ∨ s.st = writeData ∨ s.st = postWriteAck) :
      PassEffect s { s.endAck with ovfPend := false }
  | store (ho : s.ovfPend = true) (hs : s.startPend = false) (hp : s.ptr.toNat < s.n) :
      PassEffect s { (s.setRfByte s.ptr.toNat s.sr).armAck with st := postWriteAck, ovfPend := false }
  | storeNext (ho : s.ovfPend = true) (hs : s.startPend = false) (hf : s.stopFlag = false) :
      PassEffect s { ({ s with ptr := s.incPtr }.setRfByte s.incPtr.toNat s.sr).armAck with
                     st := postWriteAck, ovfPend := false }
  | load (ho : s.ovfPend = true) (hs : s.startPend = false) (hp : s.ptr.toNat < s.n) :
      PassEffect s { s.loadTx (s.rfByte s.ptr.toNat) with ovfPend := false }
  | sent (ho : s.ovfPend = true) (hs : s.startPend = false) (hst : s.st = readAckPoll) :
      PassEffect s { s with sdaOe := false, cnt := 1, ap := true, ovfPend := false }
  | loadNext (ho : s.ovfPend = true) (hs : s.startPend = false) (hb : s.sr.getLsbD 0 = false) :
      PassEffect s { { s with ptr := s.incPtr }.loadTx (s.rfByte s.incPtr.toNat) with ovfPend := false }

/-- The instructions on the engine's port. -/
def isPass (i : Instr) : Prop := ∃ key, encode i = .event key

theorem pass_effect (hi : isPass i) (h : exec i s = .next t) : PassEffect s t := by
  obtain ⟨key, hk⟩ := hi
  cases i <;> first
    | (simp only [encode, reduceCtorEq] at hk; done)
    | (clear hk
       simp only [exec, execStart, execOvfAwaitAddressByte, execOvfAwaitAddressAck, execOvfAwaitRegisterPointerByte,
         execOvfAwaitRegisterPointerAck, execOvfWriteDataByte, execOvfWriteDataAck, execOvfPostWriteAckByte,
         execOvfPostWriteAckAck, execOvfReadDataPreAck, execOvfReadDataPreByte, execOvfReadAckPollByte,
         execOvfReadAckPollAck, execOvfReservedState, startFrame_eq_next, ovfFrame_eq_next, rawRead_eq_next,
         rawWrite_eq_next, Host.Outcome.next.injEq] at h)
  case start =>
    obtain ⟨-, hs, rfl⟩ := h
    exact .start hs
  case ovfAwaitAddressByte =>
    obtain ⟨-, ho, hs, -, -, u, rfl, rfl⟩ := h
    by_cases ha : s.rxAddr = s.sa
    · rw [if_pos ha]; exact .ackAddress ho hs ha
    · rw [if_neg ha]; exact .idle ho hs
  case ovfAwaitAddressAck => obtain ⟨-, ho, hs, -, -, u, rfl, rfl⟩ := h; exact .idle ho hs
  case ovfReadDataPreByte => obtain ⟨-, ho, hs, -, -, u, rfl, rfl⟩ := h; exact .idle ho hs
  case ovfAwaitRegisterPointerByte => obtain ⟨-, ho, hs, -, -, u, rfl, rfl⟩ := h; exact .pointer ho hs
  case ovfAwaitRegisterPointerAck => obtain ⟨-, ho, hs, hst, -, u, rfl, rfl⟩ := h; exact .endAck ho hs (.inl hst)
  case ovfWriteDataAck => obtain ⟨-, ho, hs, hst, -, u, rfl, rfl⟩ := h; exact .endAck ho hs (.inr (.inl hst))
  case ovfPostWriteAckAck => obtain ⟨-, ho, hs, hst, -, u, rfl, rfl⟩ := h; exact .endAck ho hs (.inr (.inr hst))
  case ovfWriteDataByte => obtain ⟨-, ho, hs, -, -, u, ⟨hp, rfl⟩, rfl⟩ := h; exact .store ho hs hp
  case ovfPostWriteAckByte =>
    obtain ⟨-, ho, hs, -, -, u, hu, rfl⟩ := h
    by_cases hf : s.stopFlag = true
    · rw [if_pos hf, Host.Outcome.next.injEq] at hu
      exact hu ▸ .idle ho hs
    · rw [if_neg hf, rawWrite_eq_next, Host.Outcome.next.injEq] at hu
      obtain ⟨-, rfl⟩ := hu
      exact .storeNext ho hs (Bool.eq_false_iff.2 hf)
  case ovfReadDataPreAck => obtain ⟨-, ho, hs, -, -, u, ⟨hp, rfl⟩, rfl⟩ := h; exact .load ho hs hp
  case ovfReadAckPollByte => obtain ⟨-, ho, hs, hst, -, u, rfl, rfl⟩ := h; exact .sent ho hs hst
  case ovfReadAckPollAck =>
    obtain ⟨-, ho, hs, -, -, u, hu, rfl⟩ := h
    by_cases hb : s.sr.getLsbD 0 = true
    · rw [if_pos hb, Host.Outcome.next.injEq] at hu
      exact hu ▸ .idle ho hs
    · rw [if_neg hb, rawRead_eq_next, Host.Outcome.next.injEq] at hu
      obtain ⟨-, rfl⟩ := hu
      exact .loadNext ho hs (Bool.eq_false_iff.2 hb)
  case ovfReservedState st ap =>
    obtain ⟨-, ho, hs, -, -, u, hu, rfl⟩ := h
    split at hu
    · rw [Host.Outcome.next.injEq] at hu
      exact hu ▸ .idle ho hs
    · simp at hu

theorem State.pass_isPass (s : State) : isPass s.pass := by
  unfold State.pass decodeOvf
  cases s.startPend
  · simp only [Bool.false_eq_true, if_false]
    split <;> exact ⟨_, rfl⟩
  · exact ⟨_, rfl⟩

theorem enginePass_eq_pass (s : State) : enginePass s = exec s.pass s := enginePass_eq s

theorem enginePass_effect (h : enginePass s = .next t) : PassEffect s t :=
  pass_effect s.pass_isPass (enginePass_eq_pass s ▸ h)

/-- Every pass ends with SCL released. -/
theorem PassEffect.sclPull (h : PassEffect s t) : t.sclPull = false := by
  cases h <;> simp [State.sclPull, *]

/-! ### Application operations -/

/-- An application operation writes the register file and the results only; the file stays canonical. -/
theorem app_effect {cmd : BitVec 4} {idx : Byte} {w : Word} (hi : encode i = .command cmd idx w)
    (h : exec i s = .next t) :
    s.rst = false ∧ t = { s with rf := t.rf, rdata := t.rdata, err := t.err } ∧
      (Memory.wf s.params s.rf = true → Memory.wf s.params t.rf = true) := by
  cases i <;> first
    | (simp only [encode, reduceCtorEq] at hi; done)
    | (clear hi
       simp only [exec, execGetU8, execGetU16, execGetU32, execGetS8, execGetS16, execGetS32, execSetU8, execSetU16,
         execSetU32, execSetS8, execSetS16, execSetS32, execReservedWidth, appFrame_eq_next, running_eq_next,
         Host.Outcome.next.injEq] at h
       obtain ⟨hr, h⟩ := h
       refine ⟨hr, ?_, fun hw => ?_⟩ <;> first
         | (subst h; rfl)
         | (subst h; exact hw)
         | (rw [h]; split <;> rfl)
         | (rw [h]
            split
            · exact hw
            · simp only [State.n, gt_iff_lt, not_lt] at *
              simp only [State.memWrite8, State.memWrite16, State.memWrite32, State.setRfByte, State.answer]
              repeat' first | exact hw | apply Memory.wf_write
              all_goals omega))

/-! ### Wire bytes -/

/-- A property that a CLOCK and a pass keep is kept by a wire byte. -/
theorem sendBits_keeps {P : State → Prop} (hclock : ∀ s b, P s → s.ClockReady → P (s.clocked b))
    (hpass : ∀ s t, P s → s.rst = false → s.sclPull = true → PassEffect s t → P t) :
    ∀ {bs : List Bool} {s t : State}, P s → sendBits bs s = .next t → P t := by
  intro bs
  induction bs with
  | nil =>
    intro s t hs h
    simp only [sendBits, Host.Outcome.next.injEq] at h
    exact h ▸ hs
  | cons b bs ih =>
    intro s t hs h
    obtain ⟨u, hu, h⟩ := sendBits_cons_eq_next.1 h
    obtain ⟨hr, hp, hu⟩ := clockAndSettle_eq_next.1 hu
    refine ih ?_ h
    have hc := hclock s b hs ⟨hr, hp⟩
    unfold settle at hu
    split at hu
    · next hsc => exact hpass _ _ hc hr hsc (enginePass_effect hu)
    · simp only [Host.Outcome.next.injEq] at hu
      exact hu ▸ hc

end Sys2Proof.Machine
end

