-- ==== Sys2Proof/Laws/Inputs.lean ====
section
/-!
SUPPORT. No instruction reads or writes the list of turns: running one with another list gives the same outcome with that list.
-/

namespace Sys2Proof.Machine

variable {s : State} {k k' : Result} {f : State → Result} {st : BitVec 3} {ap : Bool} {w : Nat} {idx : Byte}

/-- The outcome with `r` as the list of turns. -/
def withTurns (r : List Input) (o : Result) : Result := andThen o (fun t => .next { t with inputs := r })

/-- `f` carries the list of turns along and does not look at it. -/
def Carries (f : State → Result) : Prop := ∀ s r, f { s with inputs := r } = withTurns r (f s)

@[simp] theorem withTurns_next {t : State} (r : List Input) : withTurns r (.next t) = .next { t with inputs := r } := rfl

@[simp] theorem withTurns_fault (r : List Input) (q : Fault) : withTurns r (.fault q) = .fault q := rfl

@[simp] theorem withTurns_refused (r : List Input) (q : Refusal) : withTurns r (.refused q) = .refused q := rfl

theorem Carries.andThen {g : State → Result} (hf : Carries f) (hg : Carries g) : Carries (fun s => andThen (f s) g) := by
  intro s r
  show Machine.andThen (f { s with inputs := r }) g = withTurns r (Machine.andThen (f s) g)
  rw [hf]
  cases f s with
  | next t => exact hg t r
  | fault q => rfl
  | refused q => rfl

theorem Carries.ite {c : State → Bool} {g : State → Result} (hc : ∀ s r, c { s with inputs := r } = c s) (hf : Carries f)
    (hg : Carries g) : Carries (fun s => if c s then f s else g s) := by
  intro s r
  show (if c { s with inputs := r } then f { s with inputs := r } else g { s with inputs := r }) = _
  rw [hc, hf, hg]
  dsimp only
  split <;> rfl

theorem carries_refused (q : Refusal) : Carries (fun _ => .refused q) := fun _ _ => rfl

/-- A step of an agent in its frame. -/
theorem carries_running (hf : Carries f) : Carries (fun s => running s (f s)) :=
  Carries.ite (c := State.rst) (fun _ _ => rfl) (carries_refused _) hf

theorem carries_startFrame (hf : Carries f) : Carries (fun s => startFrame s f) :=
  carries_running (Carries.ite (c := State.startPend) (f := fun s => f { s with startPend := false, ovfPend := false })
    (fun _ _ => rfl) (fun s r => hf { s with startPend := false, ovfPend := false } r) (carries_refused _))

theorem carries_ovfFrame (hf : Carries f) : Carries (fun s => ovfFrame st ap s f) :=
  carries_running (Carries.ite (c := fun s => s.ovfSelected st ap) (fun _ _ => rfl)
    (Carries.andThen (g := fun t => .next { t with ovfPend := false }) hf (fun _ _ => rfl)) (carries_refused _))

theorem carries_busFrame (hf : Carries f) : Carries (fun s => busFrame s (f s)) :=
  carries_running (Carries.ite (c := State.sclPull) (fun _ _ => rfl) (carries_refused _) hf)

theorem carries_conditionFrame (hf : Carries f) : Carries (fun s => conditionFrame s (f s)) :=
  carries_busFrame (Carries.ite (c := State.sdaPull) (fun _ _ => rfl) (carries_refused _) hf)

theorem carries_appFrame {f : State → State} (hf : ∀ s r, f { s with inputs := r } = { f s with inputs := r }) :
    Carries (fun s => appFrame s idx w (f s)) := by
  refine carries_running (fun s r => ?_)
  show Host.Outcome.next (if idx.toNat + w > s.n then _ else f { s with inputs := r }) = withTurns r (.next _)
  rw [hf]
  split <;> rfl

theorem carries_rawRead {g : State → Byte → Result} (hg : ∀ b, Carries (fun s => g s b)) :
    Carries (fun s => rawRead s (g s)) := by
  intro s r
  show (if s.ptr.toNat < s.n then g { s with inputs := r } (s.rfByte s.ptr.toNat) else _) = withTurns r (if _ then _ else _)
  have h : g { s with inputs := r } (s.rfByte s.ptr.toNat) = withTurns r (g s (s.rfByte s.ptr.toNat)) := hg _ s r
  rw [h]
  split <;> rfl

theorem carries_rawWrite {b : State → Byte} (hb : ∀ s r, b { s with inputs := r } = b s) (hf : Carries f) :
    Carries (fun s => rawWrite s (b s) f) := by
  intro s r
  show (if s.ptr.toNat < s.n then f { s.setRfByte s.ptr.toNat (b { s with inputs := r }) with inputs := r } else _) =
    withTurns r (if _ then _ else _)
  rw [hb, hf]
  split <;> rfl

/-- A pass carries the list of turns along. -/
theorem carries_pass {i : Instr} (hi : ∃ key, encode i = .event key) : Carries (exec i) := by
  obtain ⟨key, hk⟩ := hi
  cases i <;> first
    | (simp only [encode, reduceCtorEq] at hk; done)
    | clear hk
  case start =>
    exact carries_startFrame
      (f := fun s => .next { s with st := awaitAddress, ap := false, sdaOe := false, cnt := 8, ovfEn := true }) (fun _ _ => rfl)
  case ovfAwaitAddressByte =>
    refine carries_ovfFrame (fun s r => ?_)
    show Host.Outcome.next (if s.rxAddr = s.sa then _ else _) = withTurns r (.next (if _ then _ else _))
    split <;> rfl
  case ovfAwaitAddressAck => exact carries_ovfFrame (fun _ _ => rfl)
  case ovfAwaitRegisterPointerByte => exact carries_ovfFrame (fun _ _ => rfl)
  case ovfAwaitRegisterPointerAck => exact carries_ovfFrame (fun _ _ => rfl)
  case ovfWriteDataByte => exact carries_ovfFrame (carries_rawWrite (b := State.sr) (fun _ _ => rfl) (fun _ _ => rfl))
  case ovfWriteDataAck => exact carries_ovfFrame (fun _ _ => rfl)
  case ovfPostWriteAckByte =>
    refine carries_ovfFrame (Carries.ite (c := State.stopFlag) (fun _ _ => rfl) (fun _ _ => rfl) ?_)
    exact fun s r => carries_rawWrite (b := State.sr) (fun _ _ => rfl)
      (f := fun s => .next { s.armAck with st := postWriteAck }) (fun _ _ => rfl) { s with ptr := s.incPtr } r
  case ovfPostWriteAckAck => exact carries_ovfFrame (fun _ _ => rfl)
  case ovfReadDataPreAck => exact carries_ovfFrame (carries_rawRead (g := fun s b => .next (s.loadTx b)) (fun _ _ _ => rfl))
  case ovfReadDataPreByte => exact carries_ovfFrame (fun _ _ => rfl)
  case ovfReadAckPollByte => exact carries_ovfFrame (fun _ _ => rfl)
  case ovfReadAckPollAck =>
    refine carries_ovfFrame (Carries.ite (c := fun s => s.sr.getLsbD 0) (fun _ _ => rfl) (fun _ _ => rfl) ?_)
    exact fun s r => carries_rawRead (g := fun s b => .next (s.loadTx b)) (fun _ _ _ => rfl) { s with ptr := s.incPtr } r
  case ovfReservedState st ap =>
    refine carries_ovfFrame (fun s r => ?_)
    cases h : reservedCode st <;> rfl

theorem carries_enginePass : Carries enginePass := by
  intro s r
  rw [enginePass_eq, enginePass_eq]
  refine carries_pass ?_ s r
  cases s.startPend with
  | true => exact ⟨_, rfl⟩
  | false =>
    show ∃ key, encode (decodeOvf s.st s.ap) = .event key
    rcases bitVec3_cases s.st with h | h | h | h | h | h | h | h <;> rw [h] <;> cases s.ap <;> exact ⟨_, rfl⟩

theorem carries_sendBits (bs : List Bool) : Carries (sendBits bs) := by
  induction bs with
  | nil => exact fun _ _ => rfl
  | cons b bs ih =>
    have hclock : Carries (execClock b) := carries_busFrame (f := fun s => .next (s.clocked b)) (fun _ _ => rfl)
    have hsettle : Carries settle := Carries.ite (c := State.sclPull) (fun _ _ => rfl) carries_enginePass (fun _ _ => rfl)
    exact (hclock.andThen hsettle).andThen ih

/-- No instruction looks at the list of turns, and every instruction carries it along. -/
theorem carries_exec (i : Instr) : Carries (exec i) := by
  cases i <;> first
    | exact carries_pass ⟨_, rfl⟩
    | exact carries_sendBits _
    | exact carries_busFrame (f := fun s => .next (s.clocked _)) (fun _ _ => rfl)
    | skip
  case startCond =>
    exact carries_conditionFrame (f := fun s => .next { s with startPend := true, stopFlag := false }) (fun _ _ => rfl)
  case stopCond => exact carries_conditionFrame (f := fun s => .next { s with stopFlag := true }) (fun _ _ => rfl)
  case getU8 idx => exact carries_appFrame (f := fun s => s.answer (zext32 (s.memRead8 idx.toNat)) 0) (fun _ _ => rfl)
  case getU16 idx => exact carries_appFrame (f := fun s => s.answer (zext32 (s.memRead16 idx.toNat)) 0) (fun _ _ => rfl)
  case getU32 idx => exact carries_appFrame (f := fun s => s.answer (s.memRead32 idx.toNat) 0) (fun _ _ => rfl)
  case getS8 idx => exact carries_appFrame (f := fun s => s.answer (sext32 (s.memRead8 idx.toNat)) 0) (fun _ _ => rfl)
  case getS16 idx => exact carries_appFrame (f := fun s => s.answer (sext32 (s.memRead16 idx.toNat)) 0) (fun _ _ => rfl)
  case getS32 idx => exact carries_appFrame (f := fun s => s.answer (s.memRead32 idx.toNat) 0) (fun _ _ => rfl)
  case setU8 idx w => exact carries_appFrame (f := fun s => (s.memWrite8 idx.toNat (low8 w)).answer 0 0) (fun _ _ => rfl)
  case setU16 idx w => exact carries_appFrame (f := fun s => (s.memWrite16 idx.toNat (low16 w)).answer 0 0) (fun _ _ => rfl)
  case setU32 idx w => exact carries_appFrame (f := fun s => (s.memWrite32 idx.toNat w).answer 0 0) (fun _ _ => rfl)
  case setS8 idx w => exact carries_appFrame (f := fun s => (s.memWrite8 idx.toNat (low8 w)).answer 0 0) (fun _ _ => rfl)
  case setS16 idx w => exact carries_appFrame (f := fun s => (s.memWrite16 idx.toNat (low16 w)).answer 0 0) (fun _ _ => rfl)
  case setS32 idx w => exact carries_appFrame (f := fun s => (s.memWrite32 idx.toNat w).answer 0 0) (fun _ _ => rfl)
  case reservedWidth => exact carries_running (f := fun s => .next (s.answer 0 2)) (fun _ _ => rfl)

end Sys2Proof.Machine
end

