-- ==== Sys2Proof/Laws/PerInstr.lean ====
section
/-!
SUPPORT. One lemma per instruction: the encoder's word fits the row of spec/opcode_table.json the instruction stands for.
-/

namespace Sys2Proof.Laws

open Sys2Proof

/-- A row of spec/opcode_table.json: its width in bits, its mask and its match value. -/
structure Row where
  /-- "width" -/
  width : Nat
  /-- "mask" -/
  mask : Nat
  /-- "match" -/
  pattern : Nat
  deriving DecidableEq, Repr

/-- The row of each constructor, copied from spec/opcode_table.json. -/
def row : Instr → Row
  | .start _ _ => ⟨6, 0x30, 0x10⟩
  | .ovfAwaitAddressByte => ⟨6, 0x3F, 0x20⟩
  | .ovfAwaitAddressAck => ⟨6, 0x3F, 0x21⟩
  | .ovfAwaitRegisterPointerByte => ⟨6, 0x3F, 0x22⟩
  | .ovfAwaitRegisterPointerAck => ⟨6, 0x3F, 0x23⟩
  | .ovfWriteDataByte => ⟨6, 0x3F, 0x24⟩
  | .ovfWriteDataAck => ⟨6, 0x3F, 0x25⟩
  | .ovfPostWriteAckByte => ⟨6, 0x3F, 0x26⟩
  | .ovfPostWriteAckAck => ⟨6, 0x3F, 0x27⟩
  | .ovfReadDataPreAck => ⟨6, 0x3F, 0x29⟩
  | .ovfReadDataPreByte => ⟨6, 0x3F, 0x28⟩
  | .ovfReadAckPollByte => ⟨6, 0x3F, 0x2A⟩
  | .ovfReadAckPollAck => ⟨6, 0x3F, 0x2B⟩
  | .ovfReservedState _ _ => ⟨6, 0x3C, 0x2C⟩
  | .getU8 _ => ⟨4, 0x0F, 0x00⟩
  | .getU16 _ => ⟨4, 0x0F, 0x01⟩
  | .getU32 _ => ⟨4, 0x0F, 0x02⟩
  | .getS8 _ => ⟨4, 0x0F, 0x04⟩
  | .getS16 _ => ⟨4, 0x0F, 0x05⟩
  | .getS32 _ => ⟨4, 0x0F, 0x06⟩
  | .setU8 _ _ => ⟨4, 0x0F, 0x08⟩
  | .setU16 _ _ => ⟨4, 0x0F, 0x09⟩
  | .setU32 _ _ => ⟨4, 0x0F, 0x0A⟩
  | .setS8 _ _ => ⟨4, 0x0F, 0x0C⟩
  | .setS16 _ _ => ⟨4, 0x0F, 0x0D⟩
  | .setS32 _ _ => ⟨4, 0x0F, 0x0E⟩
  | .reservedWidth _ _ _ _ => ⟨4, 0x03, 0x03⟩
  | .clock _ => ⟨2, 0x02, 0x00⟩
  | .startCond => ⟨2, 0x03, 0x02⟩
  | .stopCond => ⟨2, 0x03, 0x03⟩
  | .addrW _ => ⟨8, 0x01, 0x00⟩
  | .addrR _ => ⟨8, 0x01, 0x01⟩

/-- The width and the bits of an encoded step that the table's row shows (operands have no bits there). -/
def bits : Encoded → Nat × Nat
  | .event key => (6, key.toNat)
  | .command cmd _ _ => (4, cmd.toNat)
  | .action code => (2, code.toNat)
  | .wire byte => (8, byte.toNat)

/-- The encoder's word has the row's width, and under the row's mask it is the row's match value. -/
def TablePattern.Statement (i : Instr) : Prop :=
  i.wf = true → (bits (encode i)).1 = (row i).width ∧ (bits (encode i)).2 &&& (row i).mask = (row i).pattern

theorem TablePattern.start (st : BitVec 3) (ap : Bool) : TablePattern.Statement (.start st ap) := by
  unfold TablePattern.Statement
  revert st ap
  decide

theorem TablePattern.ovfAwaitAddressByte : TablePattern.Statement (.ovfAwaitAddressByte) :=
  fun _ => ⟨rfl, by simp [bits, encode, row]⟩

theorem TablePattern.ovfAwaitAddressAck : TablePattern.Statement (.ovfAwaitAddressAck) :=
  fun _ => ⟨rfl, by simp [bits, encode, row]⟩

theorem TablePattern.ovfAwaitRegisterPointerByte : TablePattern.Statement (.ovfAwaitRegisterPointerByte) :=
  fun _ => ⟨rfl, by simp [bits, encode, row]⟩

theorem TablePattern.ovfAwaitRegisterPointerAck : TablePattern.Statement (.ovfAwaitRegisterPointerAck) :=
  fun _ => ⟨rfl, by simp [bits, encode, row]⟩

theorem TablePattern.ovfWriteDataByte : TablePattern.Statement (.ovfWriteDataByte) :=
  fun _ => ⟨rfl, by simp [bits, encode, row]⟩

theorem TablePattern.ovfWriteDataAck : TablePattern.Statement (.ovfWriteDataAck) :=
  fun _ => ⟨rfl, by simp [bits, encode, row]⟩

theorem TablePattern.ovfPostWriteAckByte : TablePattern.Statement (.ovfPostWriteAckByte) :=
  fun _ => ⟨rfl, by simp [bits, encode, row]⟩

theorem TablePattern.ovfPostWriteAckAck : TablePattern.Statement (.ovfPostWriteAckAck) :=
  fun _ => ⟨rfl, by simp [bits, encode, row]⟩

theorem TablePattern.ovfReadDataPreAck : TablePattern.Statement (.ovfReadDataPreAck) :=
  fun _ => ⟨rfl, by simp [bits, encode, row]⟩

theorem TablePattern.ovfReadDataPreByte : TablePattern.Statement (.ovfReadDataPreByte) :=
  fun _ => ⟨rfl, by simp [bits, encode, row]⟩

theorem TablePattern.ovfReadAckPollByte : TablePattern.Statement (.ovfReadAckPollByte) :=
  fun _ => ⟨rfl, by simp [bits, encode, row]⟩

theorem TablePattern.ovfReadAckPollAck : TablePattern.Statement (.ovfReadAckPollAck) :=
  fun _ => ⟨rfl, by simp [bits, encode, row]⟩

theorem TablePattern.ovfReservedState (st : BitVec 3) (ap : Bool) : TablePattern.Statement (.ovfReservedState st ap) := by
  unfold TablePattern.Statement
  revert st ap
  decide

theorem TablePattern.getU8 (idx : Byte) : TablePattern.Statement (.getU8 idx) :=
  fun _ => ⟨rfl, by simp [bits, encode, row]⟩

theorem TablePattern.getU16 (idx : Byte) : TablePattern.Statement (.getU16 idx) :=
  fun _ => ⟨rfl, by simp [bits, encode, row]⟩

theorem TablePattern.getU32 (idx : Byte) : TablePattern.Statement (.getU32 idx) :=
  fun _ => ⟨rfl, by simp [bits, encode, row]⟩

theorem TablePattern.getS8 (idx : Byte) : TablePattern.Statement (.getS8 idx) :=
  fun _ => ⟨rfl, by simp [bits, encode, row]⟩

theorem TablePattern.getS16 (idx : Byte) : TablePattern.Statement (.getS16 idx) :=
  fun _ => ⟨rfl, by simp [bits, encode, row]⟩

theorem TablePattern.getS32 (idx : Byte) : TablePattern.Statement (.getS32 idx) :=
  fun _ => ⟨rfl, by simp [bits, encode, row]⟩

theorem TablePattern.setU8 (idx : Byte) (wdata : Word) : TablePattern.Statement (.setU8 idx wdata) :=
  fun _ => ⟨rfl, by simp [bits, encode, row]⟩

theorem TablePattern.setU16 (idx : Byte) (wdata : Word) : TablePattern.Statement (.setU16 idx wdata) :=
  fun _ => ⟨rfl, by simp [bits, encode, row]⟩

theorem TablePattern.setU32 (idx : Byte) (wdata : Word) : TablePattern.Statement (.setU32 idx wdata) :=
  fun _ => ⟨rfl, by simp [bits, encode, row]⟩

theorem TablePattern.setS8 (idx : Byte) (wdata : Word) : TablePattern.Statement (.setS8 idx wdata) :=
  fun _ => ⟨rfl, by simp [bits, encode, row]⟩

theorem TablePattern.setS16 (idx : Byte) (wdata : Word) : TablePattern.Statement (.setS16 idx wdata) :=
  fun _ => ⟨rfl, by simp [bits, encode, row]⟩

theorem TablePattern.setS32 (idx : Byte) (wdata : Word) : TablePattern.Statement (.setS32 idx wdata) :=
  fun _ => ⟨rfl, by simp [bits, encode, row]⟩

theorem TablePattern.reservedWidth (dir sgn : Bool) (idx : Byte) (wdata : Word) : TablePattern.Statement (.reservedWidth dir sgn idx wdata) := by
  cases dir <;> cases sgn <;> exact fun _ => ⟨rfl, by simp [bits, encode, row]⟩

theorem TablePattern.clock (b : Bool) : TablePattern.Statement (.clock b) := by
  unfold TablePattern.Statement
  revert b
  decide

theorem TablePattern.startCond : TablePattern.Statement (.startCond) :=
  fun _ => ⟨rfl, by simp [bits, encode, row]⟩

theorem TablePattern.stopCond : TablePattern.Statement (.stopCond) :=
  fun _ => ⟨rfl, by simp [bits, encode, row]⟩

theorem TablePattern.addrW (a : BitVec 7) : TablePattern.Statement (.addrW a) := by
  unfold TablePattern.Statement
  revert a
  decide

theorem TablePattern.addrR (a : BitVec 7) : TablePattern.Statement (.addrR a) := by
  unfold TablePattern.Statement
  revert a
  decide

end Sys2Proof.Laws
end

