-- ==== Sys2Proof/Laws/Runs.lean ====
section
/-!
SUPPORT. Runs as the bus master sees them: how runs compose, and what one whole byte does in each of the three situations a
master's byte meets: the block receives it, the block sends one, or the block is detached.
-/

namespace Sys2Proof.Machine

variable {s t u : State} {ls ms : List Bool} {rest : List Input}

/-! ### One CLOCK and several -/

/-- An enabled CLOCK completes (42_bus_and_bit_counter.md R183). -/
theorem exec_clock (h : s.ClockReady) (b : Bool) : exec (.clock b) s = .next (s.clocked b) := by
  simp [exec, execClock, busFrame, running_of h.1, h.2]

theorem foldl_andThen {α : Type} (g : α → State → Result) (bs : List α) (o : Result) :
    bs.foldl (fun o b => andThen o (g b)) o = andThen o (fun s => bs.foldl (fun o b => andThen o (g b)) (.next s)) := by
  induction bs generalizing o with
  | nil => cases o <;> rfl
  | cons b bs ih =>
    rw [List.foldl_cons, ih]
    cases o with
    | next s => rw [andThen_next, andThen_next, List.foldl_cons, andThen_next, ih (g b s)]
    | fault r => rfl
    | refused r => rfl

@[simp] theorem clocks_nil : clocks [] s = .next s := rfl

theorem clocks_cons (b : Bool) (bs : List Bool) (s : State) :
    clocks (b :: bs) s = andThen (exec (.clock b) s) (clocks bs) := by
  unfold clocks
  rw [List.foldl_cons, foldl_andThen]
  rfl

/-! ### Composition of runs -/

/-- From `s` some run leads to `t`, and along it the master observes `ls`. -/
def Goes (s t : State) (ls : List Bool) : Prop := ∃ k, observe k s = some (t, ls)

theorem Goes.refl : Goes s s [] := ⟨0, rfl⟩

theorem observe_append {k l : Nat} (h : observe k s = some (t, ls)) (h' : observe l t = some (u, ms)) :
    observe (k + l) s = some (u, ls ++ ms) := by
  induction k generalizing s ls with
  | zero =>
    simp only [observe, Option.some.injEq, Prod.mk.injEq] at h
    obtain ⟨rfl, rfl⟩ := h
    simpa using h'
  | succ k ih =>
    rw [Nat.succ_add]
    simp only [observe] at h ⊢
    cases hs : step s with
    | next v =>
      simp only [hs, Option.map_eq_some_iff, Prod.exists, Prod.mk.injEq] at h
      obtain ⟨v', ls', hv, rfl, rfl⟩ := h
      simp [ih hv]
    | fault r => simp [hs] at h
    | refused r => simp [hs] at h

theorem Goes.trans (h : Goes s t ls) (h' : Goes t u ms) : Goes s u (ls ++ ms) := by
  obtain ⟨k, h⟩ := h
  obtain ⟨l, h'⟩ := h'
  exact ⟨k + l, observe_append h h'⟩

/-- A silent part of a run in front, or behind. -/
theorem Goes.trans_nil (h : Goes s t []) (h' : Goes t u ms) : Goes s u ms := by simpa using h.trans h'

theorem Goes.trans_nil' (h : Goes s t ls) (h' : Goes t u []) : Goes s u ls := by simpa using h.trans h'

theorem goes_step (h : step s = .next t) : Goes s t (observed s t) := ⟨1, by simp [observe, h]⟩

/-! ### The steps a master's turn leads to -/

theorem decodeAction_clockCode (b : Bool) : decodeAction (clockCode b) = .clock b := by cases b <;> rfl

theorem observed_bus {c : BitVec 2} (hi : s.inputs = .bus c :: rest) (h : s.sclPull = false) :
    observed s t = if c.getLsbD 1 then [] else [t.line] := by
  simp [observed, fetch, hi, busTurn, State.engineReady, h]

/-- A CLOCK turn: the state of R183, and the level it returns. -/
theorem goes_clock {b : Bool} (h : s.ClockReady) (hi : s.inputs = .bus (clockCode b) :: rest) :
    Goes s ({ s with inputs := rest }.clocked b) [s.sdaLine b] := by
  have hs : step s = .next ({ s with inputs := rest }.clocked b) := by
    rw [step_bus hi h.2, decodeAction_clockCode]
    exact exec_clock (s := { s with inputs := rest }) h b
  have := goes_step hs
  rwa [observed_bus hi h.2, show (clockCode b).getLsbD 1 = false by cases b <;> rfl] at this

/-- A pending event is handled before anything the master has to do. -/
theorem goes_pass (hr : s.rst = false) (h : s.sclPull = true)
    (hi : s.inputs = [] ∨ ∃ c rest, s.inputs = .bus c :: rest) (he : enginePass s = .next t) : Goes s t [] := by
  have hs : step s = .next t := by
    rcases hi with hi | ⟨c, rest, hi⟩
    · rw [step_nil_pending hi hr h, he]
    · rw [step_bus_held hi hr h, he]
  have := goes_step hs
  rcases hi with hi | ⟨c, rest, hi⟩ <;>
    simpa [observed, fetch, hi, busTurn, State.engineReady, h, hr] using this

/-- A pending event is handled in the engine's own turn. -/
theorem goes_engine (hr : s.rst = false) (h : s.sclPull = true) (hi : s.inputs = .engine :: rest)
    (he : enginePass { s with inputs := rest } = .next t) : Goes s t [] := by
  have hf : fetch s = .code (.event s.key) { s with inputs := rest } := by
    unfold fetch
    rw [hi]
    simp [State.engineReady, h, hr]
  have hs : step s = .next t := by
    rw [step_engine hf, ← he, enginePass_eq]
  have := goes_step hs
  simpa [observed, hf] using this

/-- With no event pending, the engine's turn is only taken off. -/
theorem goes_engine_quiet (h : s.sclPull = false) (hi : s.inputs = .engine :: rest) :
    Goes s { s with inputs := rest } [] := by
  have hf : fetch s = .quiet { s with inputs := rest } := by
    unfold fetch
    rw [hi]
    simp [State.engineReady, h]
  have := goes_step (s := s) (t := { s with inputs := rest }) (by simp only [step, hf])
  simpa [observed, hf] using this

/-- An application turn. -/
theorem goes_app {cmd : BitVec 4} {idx : Byte} {wdata : Word} (hi : s.inputs = .app cmd idx wdata :: rest)
    (he : exec (decodeCommand cmd idx wdata) { s with inputs := rest } = .next t) : Goes s t [] := by
  have := goes_step ((step_app hi).trans he)
  simpa [observed, fetch, hi] using this

/-- A START turn and its pass: the block waits for an address byte (40_protocol_fsm.md R116). -/
theorem goes_start (h : s.ConditionReady) (hi : s.inputs = .bus 0b10#2 :: rest)
    (hb : rest = [] ∨ ∃ c rest', rest = .bus c :: rest') :
    Goes s { s with inputs := rest, stopFlag := false, st := awaitAddress, ap := false, sdaOe := false, cnt := 8,
                    ovfEn := true } [] := by
  obtain ⟨hr, hs, hd⟩ := h
  have hp := sclPull_eq_false.1 hs
  have h1 : step s = .next { s with inputs := rest, startPend := true, stopFlag := false } := by
    rw [step_bus hi hs]
    have : decodeAction 0b10#2 = .startCond := rfl
    rw [this]
    simp only [exec, execStartCond, conditionFrame, busFrame, running]
    rw [show ({ s with inputs := rest } : State).sclPull = false from hs,
      show ({ s with inputs := rest } : State).sdaPull = false from hd]
    simp [hr]
  have g1 := goes_step h1
  rw [observed_bus hi hs] at g1
  refine Goes.trans_nil g1 (goes_pass hr rfl hb ?_)
  simp [enginePass, execStart, startFrame, running, hr, hp.1, hp.2]

/-- A STOP turn (42_bus_and_bit_counter.md R187). -/
theorem goes_stop (h : s.ConditionReady) (hi : s.inputs = .bus 0b11#2 :: rest) :
    Goes s { s with inputs := rest, stopFlag := true } [] := by
  obtain ⟨hr, hs, hd⟩ := h
  have h1 : step s = .next { s with inputs := rest, stopFlag := true } := by
    rw [step_bus hi hs]
    have : decodeAction 0b11#2 = .stopCond := rfl
    rw [this]
    simp only [exec, execStopCond, conditionFrame, busFrame, running]
    rw [show ({ s with inputs := rest } : State).sclPull = false from hs,
      show ({ s with inputs := rest } : State).sdaPull = false from hd]
    simp [hr]
  have g1 := goes_step h1
  rwa [observed_bus hi hs] at g1

/-! ### Whole bytes -/

theorem getLsbD_shiftIn (x : Byte) (b : Bool) (i : Nat) :
    (shiftIn x b).getLsbD i = if i = 0 then b else decide (i < 8) && x.getLsbD (i - 1) := by
  unfold shiftIn
  rw [BitVec.getLsbD_append]
  rcases i with _ | i
  · simp
  · by_cases h : i + 1 < 8
    · simp [h, show i < 7 by omega]
    · simp [h, show ¬ i < 7 by omega]

/-- The levels `bs` shifted in, oldest first. -/
def shiftAll (x : Byte) (bs : List Bool) : Byte := bs.foldl shiftIn x

theorem shiftAll_bits (x y : Byte) : shiftAll y (bitsMsbFirst x) = x := by
  apply BitVec.eq_of_getLsbD_eq
  intro i hi
  have : i = 0 ∨ i = 1 ∨ i = 2 ∨ i = 3 ∨ i = 4 ∨ i = 5 ∨ i = 6 ∨ i = 7 := by omega
  rcases this with rfl | rfl | rfl | rfl | rfl | rfl | rfl | rfl <;>
    (simp only [shiftAll, bitsMsbFirst, List.foldl_cons, List.foldl_nil, getLsbD_shiftIn]; simp)

/-- CLOCKs of a block that does not pull SDA and is not brought to its overflow: it shifts in the master's own levels. -/
theorem goes_listening {bs : List Bool} (h : s.ClockReady) (ho : s.sdaOe = false)
    (hc : s.ovfEn = true → bs.length < s.cnt.toNat) (hi : s.inputs = bs.map (fun b => Input.bus (clockCode b)) ++ rest) :
    ∃ l, Goes s { s with inputs := rest, line := l, sr := shiftAll s.sr bs,
                         cnt := if s.ovfEn then s.cnt - BitVec.ofNat 4 bs.length else s.cnt } bs := by
  induction bs generalizing s with
  | nil =>
    refine ⟨s.line, ?_⟩
    simp only [List.map_nil, List.nil_append] at hi
    have : s.cnt - BitVec.ofNat 4 ([] : List Bool).length = s.cnt := by simp
    rw [this, ite_self]
    subst hi
    exact .refl
  | cons b bs ih =>
    have hp := sclPull_eq_false.1 h.2
    have g := goes_clock h (b := b) hi
    have hlev : s.sdaLine b = b := by simp [State.sdaLine, State.sdaPull, ho]
    rw [hlev] at g
    let v : State := { s with inputs := bs.map (fun b => Input.bus (clockCode b)) ++ rest }.clocked b
    have hcnt : v.cnt = if s.ovfEn then s.cnt - 1#4 else s.cnt := by
      show State.cntAfterClock s = _
      cases he : s.ovfEn with
      | false => simp [State.cntAfterClock, State.counting, he]
      | true =>
        have := hc he
        simp [State.cntAfterClock, State.counting, he, show 0 < s.cnt.toNat by omega]
    have hov : v.ovfPend = false := by
      show State.ovfAfterClock s = _
      cases he : s.ovfEn with
      | false => simp [State.ovfAfterClock, State.counting, he, hp.2]
      | true =>
        have hl := hc he
        simp only [List.length_cons] at hl
        have hne : (s.cntAfterClock == 0) = false := by
          have hv : s.cntAfterClock = s.cnt - 1#4 := by
            have hv : v.cnt = s.cnt - 1#4 := by rw [hcnt, if_pos he]
            exact hv
          rw [hv, beq_eq_false_iff_ne]
          intro h0
          have := congrArg BitVec.toNat h0
          simp only [BitVec.toNat_sub, BitVec.toNat_ofNat, BitVec.ofNat_eq_ofNat] at this
          have := s.cnt.isLt
          omega
        rw [State.ovfAfterClock, hp.2, hne]
        simp
    obtain ⟨l, g'⟩ := ih (s := v) ⟨h.1, sclPull_eq_false.2 ⟨hp.1, hov⟩⟩ ho
      (fun he => by
        have hl := hc he
        simp only [List.length_cons] at hl
        have hse : s.ovfEn = true := he
        rw [hcnt, if_pos hse]
        simp only [BitVec.toNat_sub, BitVec.toNat_ofNat]
        have := s.cnt.isLt
        omega) rfl
    refine ⟨l, ?_⟩
    have hfin := g.trans g'
    have hsr : shiftAll v.sr bs = shiftAll s.sr (b :: bs) := by
      show shiftAll (shiftIn s.sr (s.sdaLine b)) bs = _
      rw [hlev]
      rfl
    have hve : v.ovfEn = s.ovfEn := rfl
    have hcc : (if v.ovfEn then v.cnt - BitVec.ofNat 4 bs.length else v.cnt) =
        if s.ovfEn then s.cnt - BitVec.ofNat 4 (b :: bs).length else s.cnt := by
      rw [hve, hcnt]
      cases s.ovfEn with
      | false => rfl
      | true =>
        simp only [if_true, List.length_cons]
        apply BitVec.eq_of_toNat_eq
        simp only [BitVec.toNat_sub, BitVec.toNat_ofNat]
        omega
    rw [hsr, hcc] at hfin
    have hst : ({ v with inputs := rest, line := l, sr := shiftAll s.sr (b :: bs), cnt := if s.ovfEn then s.cnt - BitVec.ofNat 4 (b :: bs).length else s.cnt } : State) =
        { s with inputs := rest, line := l, sr := shiftAll s.sr (b :: bs), cnt := if s.ovfEn then s.cnt - BitVec.ofNat 4 (b :: bs).length else s.cnt } := by
      show ({ s with inputs := rest, line := l, sr := _, cnt := _, ovfPend := v.ovfPend } : State) = _
      rw [hov, ← hp.2]
    rw [hst] at hfin
    exact hfin

/-- A bus turn of the master, as `goes_pass` wants the head of the list. -/
theorem turns_cons_or (actions : List (BitVec 2)) :
    turns actions = [] ∨ ∃ c rest, turns actions = .bus c :: rest := by
  cases actions with
  | nil => exact .inl rfl
  | cons c cs => exact .inr ⟨c, turns cs, rfl⟩

@[simp] theorem turns_append (a b : List (BitVec 2)) : turns (a ++ b) = turns a ++ turns b := List.map_append

@[simp] theorem schedule_nil : schedule [] = [] := rfl

@[simp] theorem schedule_append (a b : List Token) : schedule (a ++ b) = schedule a ++ schedule b := List.flatMap_append

/-- A transcript with no application token is its bus turns. -/
@[simp] theorem schedule_tokBus (actions : List (BitVec 2)) : schedule (tokBus actions) = turns actions := by
  induction actions with
  | nil => rfl
  | cons c cs ih => exact congrArg (Input.bus c :: ·) ih

theorem schedule_app (cmd : BitVec 4) (idx : Byte) (wdata : Word) (ts : List Token) :
    schedule (.app cmd idx wdata :: ts) = .engine :: .app cmd idx wdata :: schedule ts := rfl

theorem turns_clocks (bs : List Bool) : turns (bs.map clockCode) = bs.map (fun b => Input.bus (clockCode b)) := by
  simp [turns]

/-- The block receives a byte: after its 8 CLOCKs the byte is in `sr` and the overflow is pending
(42_bus_and_bit_counter.md R183, R184). -/
theorem goes_receive {x : Byte} (h : s.ClockReady) (ho : s.sdaOe = false) (he : s.ovfEn = true) (hc : s.cnt = 8)
    (hi : s.inputs = turns (tokW x) ++ rest) :
    Goes s { s with inputs := rest, line := x.getLsbD 0, sr := x, cnt := 0, ovfPend := true } (bitsMsbFirst x) := by
  let seven := [x.getLsbD 7, x.getLsbD 6, x.getLsbD 5, x.getLsbD 4, x.getLsbD 3, x.getLsbD 2, x.getLsbD 1]
  have hsplit : s.inputs = seven.map (fun b => Input.bus (clockCode b)) ++ (.bus (clockCode (x.getLsbD 0)) :: rest) := by
    rw [hi]; rfl
  obtain ⟨l, g⟩ := goes_listening h ho (fun _ => by rw [hc]; exact Nat.le_of_ble_eq_true rfl) hsplit
  have hcn : (if s.ovfEn then s.cnt - BitVec.ofNat 4 seven.length else s.cnt) = 1 := by
    rw [if_pos he, hc]
    show 8#4 - BitVec.ofNat 4 7 = 1#4
    decide
  rw [hcn] at g
  have g' := goes_clock (b := x.getLsbD 0) (s := { s with
    inputs := .bus (clockCode (x.getLsbD 0)) :: rest, line := l, sr := shiftAll s.sr seven, cnt := 1 }) h rfl
  have hsr : shiftIn (shiftAll s.sr seven) (x.getLsbD 0) = x := shiftAll_bits x s.sr
  have hres := g.trans g'
  simp only [State.clocked, State.sdaLine, State.sdaPull, ho, State.ovfAfterClock, State.cntAfterClock, State.counting, he,
    Bool.false_and, Bool.not_false, Bool.and_true, hsr] at hres
  simpa [seven, bitsMsbFirst, ho, he] using hres

/-- A CLOCK of a block that sends, its counter not at its last bit. -/
theorem goes_clock_sending (h : s.ClockReady) (ho : s.sdaOe = true) (he : s.ovfEn = true) (hc : 2 ≤ s.cnt.toNat)
    (hi : s.inputs = .bus (clockCode true) :: rest) :
    Goes s { s with inputs := rest, line := s.sr.getLsbD 7, sr := shiftIn s.sr (s.sr.getLsbD 7), cnt := s.cnt - 1#4 }
      [s.sr.getLsbD 7] := by
  have hp := (sclPull_eq_false.1 h.2).2
  have hne : (s.cnt - 1#4 == 0) = false := by
    rw [beq_eq_false_iff_ne]
    intro h0
    have := congrArg BitVec.toNat h0
    simp only [BitVec.toNat_sub, BitVec.toNat_ofNat, BitVec.ofNat_eq_ofNat] at this
    have := s.cnt.isLt
    omega
  have g := goes_clock h hi
  have hcnt : s.counting = true := by simp [State.counting, he, show 0 < s.cnt.toNat by omega]
  have hlev : s.sdaLine true = s.sr.getLsbD 7 := by simp [State.sdaLine, State.sdaPull, ho]
  rw [hlev] at g
  have hst : ({ s with inputs := rest } : State).clocked true =
      { s with inputs := rest, line := s.sr.getLsbD 7, sr := shiftIn s.sr (s.sr.getLsbD 7), cnt := s.cnt - 1#4 } := by
    show ({ s with inputs := rest, line := s.sdaLine true, sr := shiftIn s.sr (s.sdaLine true), cnt := s.cntAfterClock,
                   ovfPend := s.ovfAfterClock } : State) = _
    have hca : s.cntAfterClock = s.cnt - 1#4 := by simp [State.cntAfterClock, hcnt]
    have hof : s.ovfAfterClock = s.ovfPend := by rw [State.ovfAfterClock, hca, hne]; simp
    rw [hlev, hca, hof]
  rwa [hst] at g

/-- The last CLOCK of a block that sends a byte or an ACK. -/
theorem goes_clock_sent (h : s.ClockReady) (ho : s.sdaOe = true) (he : s.ovfEn = true) (hc : s.cnt = 1)
    (hi : s.inputs = .bus (clockCode true) :: rest) :
    Goes s { s with inputs := rest, line := s.sr.getLsbD 7, sr := shiftIn s.sr (s.sr.getLsbD 7), cnt := 0,
                    ovfPend := true } [s.sr.getLsbD 7] := by
  have g := goes_clock h hi
  simpa [State.clocked, State.sdaLine, State.sdaPull, ho, State.ovfAfterClock, State.cntAfterClock, State.counting, he, hc]
    using g

/-- The levels of `m` CLOCKs of a block that sends `x`, and the shift register after them. -/
def sending : Nat → Byte → List Bool × Byte
  | 0, x => ([], x)
  | m + 1, x =>
    let r := sending m (shiftIn x (x.getLsbD 7))
    (x.getLsbD 7 :: r.1, r.2)

theorem goes_sending {m : Nat} (h : s.ClockReady) (ho : s.sdaOe = true) (he : s.ovfEn = true) (hc : m < s.cnt.toNat)
    (hi : s.inputs = List.replicate m (Input.bus (clockCode true)) ++ rest) :
    ∃ l, Goes s { s with inputs := rest, line := l, sr := (sending m s.sr).2, cnt := s.cnt - BitVec.ofNat 4 m }
      (sending m s.sr).1 := by
  induction m generalizing s with
  | zero =>
    refine ⟨s.line, ?_⟩
    simp only [List.replicate_zero, List.nil_append] at hi
    have : s.cnt - BitVec.ofNat 4 0 = s.cnt := by simp
    rw [this]
    subst hi
    exact .refl
  | succ m ih =>
    have g := goes_clock_sending (rest := List.replicate m (Input.bus (clockCode true)) ++ rest) h ho he (by omega)
      (by rw [hi]; rfl)
    have hcnt : (s.cnt - 1#4).toNat = s.cnt.toNat - 1 := by
      simp only [BitVec.toNat_sub, BitVec.toNat_ofNat]
      have := s.cnt.isLt
      omega
    obtain ⟨l, g'⟩ := ih (s := { s with
      inputs := List.replicate m (Input.bus (clockCode true)) ++ rest, line := s.sr.getLsbD 7,
      sr := shiftIn s.sr (s.sr.getLsbD 7), cnt := s.cnt - 1#4 }) h ho he (by show m < (s.cnt - 1#4).toNat; omega) rfl
    refine ⟨l, ?_⟩
    have hcc : s.cnt - 1#4 - BitVec.ofNat 4 m = s.cnt - BitVec.ofNat 4 (m + 1) := by
      apply BitVec.eq_of_toNat_eq
      simp only [BitVec.toNat_sub, BitVec.toNat_ofNat]
      omega
    have := g.trans g'
    simp only [hcc] at this
    exact this

theorem sending_eight (x : Byte) :
    (sending 7 x).1 ++ [(sending 7 x).2.getLsbD 7] = bitsMsbFirst x ∧
      shiftIn (sending 7 x).2 ((sending 7 x).2.getLsbD 7) = x := by
  constructor
  · simp [sending, bitsMsbFirst, getLsbD_shiftIn, -BitVec.getLsbD_eq_getElem]
  · apply BitVec.eq_of_getLsbD_eq
    intro i hi
    have : i = 0 ∨ i = 1 ∨ i = 2 ∨ i = 3 ∨ i = 4 ∨ i = 5 ∨ i = 6 ∨ i = 7 := by omega
    rcases this with rfl | rfl | rfl | rfl | rfl | rfl | rfl | rfl <;>
      simp [sending, getLsbD_shiftIn, -BitVec.getLsbD_eq_getElem]

/-- The block sends the byte in `sr`: the master, releasing SDA, sees it most significant bit first
(42_bus_and_bit_counter.md R181); the byte is in `sr` again, and the overflow is pending. -/
theorem goes_send (h : s.ClockReady) (ho : s.sdaOe = true) (he : s.ovfEn = true) (hc : s.cnt = 8)
    (hi : s.inputs = turns tokR ++ rest) :
    ∃ l, Goes s { s with inputs := rest, line := l, cnt := 0, ovfPend := true } (bitsMsbFirst s.sr) := by
  obtain ⟨l, g⟩ := goes_sending (m := 7) (rest := .bus (clockCode true) :: rest) h ho he
    (by rw [hc]; exact Nat.le_of_ble_eq_true rfl) hi
  have hcn : s.cnt - BitVec.ofNat 4 7 = 1 := by rw [hc]; decide
  rw [hcn] at g
  have g' := g.trans (goes_clock_sent (s := { s with
    inputs := .bus (clockCode true) :: rest, line := l, sr := (sending 7 s.sr).2, cnt := 1 }) h ho he rfl rfl)
  simp only [(sending_eight s.sr).1, (sending_eight s.sr).2] at g'
  exact ⟨_, g'⟩

end Sys2Proof.Machine
end

