-- ==== Sys2Proof/Tests/Slice0.lean ====
section
/-!
SUPPORT. Tests of the model, and a witness for every statement that has hypotheses. Expected results come from the spec: the
words from the tables of 30_encoding.md (R80, R85, R87, R89), the results from the vectors of 95_test_vectors.md
sections 2.1 to 2.5.
-/

namespace Sys2Proof.Tests

open Sys2Proof Sys2Proof.Machine

/-! ### Helpers -/

/-- RF_INIT of the vectors of section 2.1, as far as they read it: `rf[i] = 0x30 + i`. -/
def rowBytes : List Byte := [0x30, 0x31, 0x32, 0x33, 0x34, 0x35]

/-- An instance with N = 256. -/
def p256 : Params := { lastIndex := 255, rfInit := rowBytes, spinCap := 1 }

/-- An instance with N = 16. -/
def p16 : Params := { lastIndex := 15, rfInit := rowBytes, spinCap := 1 }

/-- An instance with N = 1. -/
def p1 : Params := { lastIndex := 0, rfInit := [0x9C], spinCap := 1 }

/-- Right after reset, `sa = 0x20`, N = 256. -/
def base : State := State.resetOf p256 0x20 []

/-- The common start of an OVF row of section 2.1: the event pending, attached, `cnt = 0`. -/
def row (st : BitVec 3) (ap : Bool) (ptr sr : Byte) : State :=
  { base with st := st, ap := ap, ptr := ptr, sr := sr, cnt := 0, ovfEn := true, ovfPend := true }

/-- The same on the instance with N = 16. -/
def row16 (st : BitVec 3) (ap : Bool) (ptr sr : Byte) : State := { row st ap ptr sr with params := p16 }

/-- The outcome is a next state of which `p` holds. -/
def nextIs (o : Result) (p : State → Bool) : Bool :=
  match o with
  | .next t => p t
  | .fault _ => false
  | .refused _ => false

/-- The outcome is this refusal. -/
def refusedWith (o : Result) (r : Refusal) : Bool :=
  match o with
  | .next _ => false
  | .fault _ => false
  | .refused q => q == r

/-- The "after" column of section 2.1, with both pending flags clear. -/
def after (st : BitVec 3) (ap : Bool) (ptr sr : Byte) (cnt : BitVec 4) (ovfEn sdaOe : Bool) (t : State) : Bool :=
  t.st == st && t.ap == ap && t.ptr == ptr && t.sr == sr && t.cnt == cnt && t.ovfEn == ovfEn && t.sdaOe == sdaOe &&
    !t.startPend && !t.ovfPend

/-- The columns `rdata`, `err` and "written" of section 2.2. -/
def answers (data : Word) (code : BitVec 2) (written : Memory) (t : State) : Bool :=
  t.rdata == data && t.err == code && t.rf == written

/-- A file that is all zero but for these bytes, N = 256. -/
def file (m : Memory) : State := { base with params := { p256 with rfInit := [] }, rf := m }

/-! ### WellFormed -/

theorem test_reserved_state_refuses_a_state_code : Instr.wf (.ovfReservedState 2 false) = false := by decide

theorem test_reserved_state_refuses_the_last_state_code : Instr.wf (.ovfReservedState 5 true) = false := by decide

theorem test_reserved_state_takes_the_reserved_codes :
    Instr.wf (.ovfReservedState 6 false) = true ∧ Instr.wf (.ovfReservedState 7 true) = true := by decide

/-! ### Decoding, from words written out bit by bit -/

theorem test_decode_start : decode (.event 0b01_010_1#6) = .ok (.start 0b010#3 true) := by rfl
theorem test_decode_address_byte : decode (.event 0b10_000_0#6) = .ok .ovfAwaitAddressByte := by rfl
theorem test_decode_address_ack : decode (.event 0b10_000_1#6) = .ok .ovfAwaitAddressAck := by rfl
theorem test_decode_pointer_byte : decode (.event 0b10_001_0#6) = .ok .ovfAwaitRegisterPointerByte := by rfl
theorem test_decode_pointer_ack : decode (.event 0b10_001_1#6) = .ok .ovfAwaitRegisterPointerAck := by rfl
theorem test_decode_write_byte : decode (.event 0b10_010_0#6) = .ok .ovfWriteDataByte := by rfl
theorem test_decode_write_ack : decode (.event 0b10_010_1#6) = .ok .ovfWriteDataAck := by rfl
theorem test_decode_post_byte : decode (.event 0b10_011_0#6) = .ok .ovfPostWriteAckByte := by rfl
theorem test_decode_post_ack : decode (.event 0b10_011_1#6) = .ok .ovfPostWriteAckAck := by rfl
theorem test_decode_read_pre_ack : decode (.event 0b10_100_1#6) = .ok .ovfReadDataPreAck := by rfl
theorem test_decode_read_pre_byte : decode (.event 0b10_100_0#6) = .ok .ovfReadDataPreByte := by rfl
theorem test_decode_read_poll_byte : decode (.event 0b10_101_0#6) = .ok .ovfReadAckPollByte := by rfl
theorem test_decode_read_poll_ack : decode (.event 0b10_101_1#6) = .ok .ovfReadAckPollAck := by rfl
theorem test_decode_reserved : decode (.event 0b10_111_0#6) = .ok (.ovfReservedState 0b111#3 false) := by rfl
theorem test_decode_no_event : decode (.event 0b00_010_1#6) = .error .noEvent := by rfl
theorem test_decode_never_formed : decode (.event 0b11_000_0#6) = .error .eventNeverFormed := by rfl
theorem test_decode_get_u8 : decode (.command 0b0_0_00#4 5 7) = .ok (.getU8 5) := by rfl
theorem test_decode_get_u16 : decode (.command 0b0_0_01#4 5 7) = .ok (.getU16 5) := by rfl
theorem test_decode_get_u32 : decode (.command 0b0_0_10#4 5 7) = .ok (.getU32 5) := by rfl
theorem test_decode_get_s8 : decode (.command 0b0_1_00#4 5 7) = .ok (.getS8 5) := by rfl
theorem test_decode_get_s16 : decode (.command 0b0_1_01#4 5 7) = .ok (.getS16 5) := by rfl
theorem test_decode_get_s32 : decode (.command 0b0_1_10#4 5 7) = .ok (.getS32 5) := by rfl
theorem test_decode_set_u8 : decode (.command 0b1_0_00#4 5 7) = .ok (.setU8 5 7) := by rfl
theorem test_decode_set_u16 : decode (.command 0b1_0_01#4 5 7) = .ok (.setU16 5 7) := by rfl
theorem test_decode_set_u32 : decode (.command 0b1_0_10#4 5 7) = .ok (.setU32 5 7) := by rfl
theorem test_decode_set_s8 : decode (.command 0b1_1_00#4 5 7) = .ok (.setS8 5 7) := by rfl
theorem test_decode_set_s16 : decode (.command 0b1_1_01#4 5 7) = .ok (.setS16 5 7) := by rfl
theorem test_decode_set_s32 : decode (.command 0b1_1_10#4 5 7) = .ok (.setS32 5 7) := by rfl
theorem test_decode_reserved_width :
    decode (.command 0b1_0_11#4 5 7) = .ok (.reservedWidth true false 5 7) := by rfl
theorem test_decode_clock : decode (.action 0b01#2) = .ok (.clock true) := by rfl
theorem test_decode_start_cond : decode (.action 0b10#2) = .ok .startCond := by rfl
theorem test_decode_stop_cond : decode (.action 0b11#2) = .ok .stopCond := by rfl
theorem test_decode_addr_w : decode (.wire 0b0100000_0#8) = .ok (.addrW 0b0100000#7) := by rfl
theorem test_decode_addr_r : decode (.wire 0b0100000_1#8) = .ok (.addrR 0b0100000#7) := by rfl

theorem test_table_words_by_their_length :
    decodeTableWord 2 0b10 = some .startCond ∧ decodeTableWord 4 0b1010 = some (.setU32 0 0) ∧
    decodeTableWord 6 0b101011 = some .ovfReadAckPollAck ∧ decodeTableWord 8 0x41 = some (.addrR 0x20) := by decide

theorem test_table_words_in_a_byte :
    decodeTableWord 8 0x0E = some (.setS32 0 0) ∧ decodeTableWord 8 0x10 = some (.start 0 false) ∧
    decodeTableWord 8 0x2C = some (.ovfReservedState 6 false) ∧ decodeTableWord 8 0x40 = some (.addrW 0x20) := by decide

theorem test_placed_words_run_first_after_reset :
    nextIs (step (State.reset.withFetchWord 8 0x10)) (fun t => t.ovfEn) = true ∧
    nextIs (step (State.reset.withFetchWord 8 0x22)) (fun t => t.st == writeData) = true ∧
    nextIs (step (State.reset.withFetchWord 8 0x03)) (fun t => t.err == 2) = true ∧
    nextIs (step (State.reset.withFetchWord 2 0b11)) (fun t => t.stopFlag) = true ∧
    nextIs (step (State.reset.withFetchWord 8 0x40)) (fun t => t.inputs == []) = true := by decide

/-! ### Passes: 95_test_vectors.md section 2.1 -/

theorem test_start_in_mid_byte :
    nextIs (exec (.start 2 false) { row 2 false 0x07 0x5A with cnt := 3, startPend := true, ovfPend := false })
      (after 0 false 0x07 0x5A 8 true false) = true := by decide

theorem test_start_discards_the_overflow :
    nextIs (exec (.start 3 true) { row 3 true 0x04 0x00 with startPend := true })
      (after 0 false 0x04 0x00 8 true false) = true := by decide

theorem test_address_match_read :
    nextIs (exec .ovfAwaitAddressByte (row 0 false 0 0x41)) (after 4 true 0 0 1 true true) = true := by decide

theorem test_address_mismatch :
    nextIs (exec .ovfAwaitAddressByte (row 0 false 0 0x42)) (after 0 false 0 0x42 8 false false) = true := by decide

theorem test_address_ack_fails_safe :
    nextIs (exec .ovfAwaitAddressAck (row 0 true 4 0)) (after 0 false 4 0 8 false false) = true := by decide

theorem test_pointer_byte :
    nextIs (exec .ovfAwaitRegisterPointerByte (row 1 false 0 0x03)) (after 2 true 3 0 1 true true) = true := by decide

theorem test_pointer_byte_wraps :
    nextIs (exec .ovfAwaitRegisterPointerByte (row16 1 false 0 0x13)) (after 2 true 3 0 1 true true) = true := by decide

theorem test_pointer_ack :
    nextIs (exec .ovfAwaitRegisterPointerAck { row 1 true 0 0 with sdaOe := true })
      (after 1 false 0 0 8 true false) = true := by decide

theorem test_first_data_byte :
    nextIs (exec .ovfWriteDataByte (row 2 false 3 0xAB))
      (fun t => after 3 true 3 0 1 true true t && t.rfByte 3 == 0xAB && t.rfByte 4 == 0x34) = true := by decide

theorem test_write_data_ack :
    nextIs (exec .ovfWriteDataAck { row 2 true 3 0 with sdaOe := true }) (after 2 false 3 0 8 true false) = true := by decide

theorem test_further_byte_wraps :
    nextIs (exec .ovfPostWriteAckByte (row 3 false 0xFF 0x11))
      (fun t => after 3 true 0 0 1 true true t && t.rfByte 0 == 0x11) = true := by decide

theorem test_further_byte_after_stop :
    nextIs (exec .ovfPostWriteAckByte { row 3 false 3 0xCD with stopFlag := true })
      (fun t => after 0 false 3 0xCD 8 false false t && t.rf == [] && t.stopFlag) = true := by decide

theorem test_post_write_ack :
    nextIs (exec .ovfPostWriteAckAck { row 3 true 3 0 with sdaOe := true, stopFlag := true })
      (after 3 false 3 0 8 true false) = true := by decide

theorem test_load_first_read_byte :
    nextIs (exec .ovfReadDataPreAck { row 4 true 3 0 with sdaOe := true }) (after 5 false 3 0x33 8 true true) = true := by decide

theorem test_read_data_pre_byte_fails_safe :
    nextIs (exec .ovfReadDataPreByte (row 4 false 3 0)) (after 0 false 3 0 8 false false) = true := by decide

theorem test_byte_sent :
    nextIs (exec .ovfReadAckPollByte { row 5 false 3 0x33 with sdaOe := true })
      (after 5 true 3 0x33 1 true false) = true := by decide

theorem test_master_ack_wraps :
    nextIs (exec .ovfReadAckPollAck (row16 5 true 0x0F 0x00)) (after 5 false 0 0x30 8 true true) = true := by decide

theorem test_master_nack :
    nextIs (exec .ovfReadAckPollAck (row 5 true 3 0x67)) (after 0 false 3 0x67 8 false false) = true := by decide

theorem test_reserved_code_7 :
    nextIs (exec (.ovfReservedState 7 true) { row 7 true 3 0 with sdaOe := true })
      (after 0 false 3 0 8 false false) = true := by decide

/-! ### Application operations: 95_test_vectors.md section 2.2 -/

theorem test_get_u8 : nextIs (exec (.getU8 5) (file [(5, 0x80)])) (answers 0x80 0 [(5, 0x80)]) = true := by decide

theorem test_get_u8_out_of_bounds :
    nextIs (exec (.getU8 16) (State.resetOf p16 0x20 [])) (answers 0 1 []) = true := by decide

theorem test_get_s8 : nextIs (exec (.getS8 5) (file [(5, 0x80)])) (answers 0xFFFFFF80 0 [(5, 0x80)]) = true := by decide

theorem test_get_s8_at_n_1 : nextIs (exec (.getS8 0) (State.resetOf p1 0x20 [])) (answers 0xFFFFFF9C 0 []) = true := by decide

theorem test_get_u16 :
    nextIs (exec (.getU16 5) (file [(5, 0x80), (6, 0x01)])) (answers 0x8001 0 [(5, 0x80), (6, 0x01)]) = true := by decide

theorem test_get_u16_out_of_bounds : nextIs (exec (.getU16 255) (file [])) (answers 0 1 []) = true := by decide

theorem test_get_s16 :
    nextIs (exec (.getS16 5) (file [(5, 0x80), (6, 0x01)])) (answers 0xFFFF8001 0 [(5, 0x80), (6, 0x01)]) = true := by decide

theorem test_get_u32 :
    nextIs (exec (.getU32 0) (file [(0, 0xDE), (1, 0xAD), (2, 0xBE), (3, 0xEF)])) (fun t => t.rdata == 0xDEADBEEF) = true := by
  decide

theorem test_get_u32_out_of_bounds : nextIs (exec (.getU32 253) (file [])) (answers 0 1 []) = true := by decide

theorem test_get_s32 :
    nextIs (exec (.getS32 0) (file [(0, 0x7F), (1, 0xFF), (2, 0xFF), (3, 0xFF)])) (fun t => t.rdata == 0x7FFFFFFF) = true := by
  decide

theorem test_set_u8 : nextIs (exec (.setU8 9 0x1AB) (file [])) (answers 0 0 [(9, 0xAB)]) = true := by decide

theorem test_set_s8 : nextIs (exec (.setS8 9 0xFFFFFF80) (file [])) (answers 0 0 [(9, 0x80)]) = true := by decide

theorem test_set_u16 : nextIs (exec (.setU16 5 0x1234) (file [])) (answers 0 0 [(5, 0x12), (6, 0x34)]) = true := by decide

theorem test_set_u16_out_of_bounds : nextIs (exec (.setU16 255 0xABCD) (file [])) (answers 0 1 []) = true := by decide

theorem test_set_s16 : nextIs (exec (.setS16 5 0xFFFFFFFE) (file [])) (answers 0 0 [(5, 0xFF), (6, 0xFE)]) = true := by decide

theorem test_set_u32 :
    nextIs (exec (.setU32 0x10 0x01020304) (file []))
      (answers 0 0 [(0x10, 0x01), (0x11, 0x02), (0x12, 0x03), (0x13, 0x04)]) = true := by decide

theorem test_set_u32_no_partial_write : nextIs (exec (.setU32 253 0x11223344) (file [])) (answers 0 1 []) = true := by decide

theorem test_set_s32 : nextIs (exec (.setS32 0x10 0x80000000) (file [])) (answers 0 0 [(0x10, 0x80)]) = true := by decide

theorem test_reserved_width_before_the_bound :
    nextIs (exec (.reservedWidth false true 255 0) (State.resetOf p16 0x20 [])) (answers 0 2 []) = true := by decide

/-! ### Bus actions: 95_test_vectors.md section 2.3 -/

theorem test_clock_counts_to_the_overflow :
    nextIs (exec (.clock true) { base with sr := 0x20, cnt := 1, ovfEn := true })
      (fun t => t.sr == 0x41 && t.cnt == 0 && t.ovfPend && t.line) = true := by decide

theorem test_clock_wired_and :
    nextIs (exec (.clock false) { base with sr := 0xAB, sdaOe := true, ovfEn := true })
      (fun t => t.sr == 0x56 && t.cnt == 7 && !t.line) = true := by decide

theorem test_start_cond :
    nextIs (exec .startCond { base with stopFlag := true }) (fun t => t.startPend && !t.stopFlag) = true := by decide

theorem test_start_cond_while_sda_is_held :
    refusedWith (exec .startCond { base with st := 5, ovfEn := true, sdaOe := true, sr := 0x04 }) .sdaHeld = true := by decide

theorem test_stop_cond :
    nextIs (exec .stopCond { base with st := 3, ovfEn := true })
      (fun t => t == { base with st := 3, ovfEn := true, stopFlag := true }) = true := by decide

theorem test_stop_cond_while_scl_is_held : refusedWith (exec .stopCond (row 3 true 3 0)) .sclHeld = true := by decide

/-! ### Wire address bytes: 95_test_vectors.md section 3, P1 rows 2 and 7 and P3 row 2, up to the ACK clock -/

theorem test_addr_w_matches :
    nextIs (exec (.addrW 0x20) { base with ovfEn := true }) (after 1 true 0 0 1 true true) = true := by decide

theorem test_addr_w_of_another_slave :
    nextIs (exec (.addrW 0x21) { base with ovfEn := true }) (after 0 false 0 0x42 8 false false) = true := by decide

theorem test_addr_r_matches :
    nextIs (exec (.addrR 0x20) { base with ovfEn := true, ptr := 3 }) (after 4 true 3 0 1 true true) = true := by decide

/-! ### Transcripts with application tokens: 95_test_vectors.md section 3, P4 rows 6 and 7 -/

theorem test_turns_of_an_application_token :
    schedule (tokBus tokA ++ tokApp (.setU8 0 0xEE)) = [.bus 0b00#2, .engine, .app 0b1000#4 0 0xEE] := by decide

/-- Row 6 ends with the pass that loads `rf[0] = 10`, before the SET of row 7. -/
theorem test_application_token_waits_for_the_pass :
    nextIs (step { row16 5 true 0x0F 0x1E with
        params := { p16 with rfInit := [0x10, 0x11] }, inputs := schedule (tokApp (.setU8 0 0xEE)) })
      (fun t => after 5 false 0 0x10 8 true true t && t.inputs == [.app 0b1000#4 0 0xEE] && t.rf == []) = true := by decide

/-! ### Reset: 95_test_vectors.md section 2.5 -/

theorem test_release_of_reset :
    nextIs (step { row 5 false 9 0xC0 with sdaOe := true, rst := true, cfgAddr := 0x5A, rf := [(2, 1)], inputs := [.rst false] })
      (fun t => t == State.resetOf p256 0x5A []) = true := by decide

/-! ### Witnesses: states and operands that meet the hypotheses of each statement, each clause at a boundary of its range -/

/-- A next state is there. -/
theorem next_of {o : Result} (h : nextIs o (fun _ => true) = true) : ∃ t, o = .next t := by
  cases o with
  | next t => exact ⟨t, rfl⟩
  | fault r => exact absurd h (by simp [nextIs])
  | refused r => exact absurd h (by simp [nextIs])

theorem witness_ResetLeavesTheStatedValuesAndOnlyAStartWakesTheBlock :
    (∃ t, exec .stopCond base = .next t) ∧ (∃ t, exec (.addrW 0x20) base = .next t) ∧ (0 < base.n ∧ 255 < base.n) :=
  ⟨next_of (by decide), next_of (by decide), by decide⟩

theorem witness_ResetInputStopsEveryAgentAndItsReleaseResets :
    { base with rst := true, inputs := [.rst false] }.rst = true ∧
    { base with rst := true, inputs := [.rst false] }.inputs = .rst false :: [] ∧
    { base with inputs := [.rst true] }.inputs = .rst true :: [] := by decide

theorem witness_OnlyTheReleaseOfResetWritesTheSlaveAddress :
    (∃ t, step { base with rst := true, cfgAddr := 0x7F, inputs := [.rst false] } = .next t) ∧
    (∃ t, step { base with inputs := [.cfg 0x7F] } = .next t) ∧ ∃ t, step base = .next t :=
  ⟨next_of (by decide), next_of (by decide), next_of (by decide)⟩

theorem witness_StartPassRestartsTheTransactionAndKeepsThePointer :
    { row 7 true 0xFF 0x5A with startPend := true }.rst = false ∧
    { row 7 true 0xFF 0x5A with startPend := true }.startPend = true := by decide

theorem witness_AddressMatcherAcksExactlyItsOwnAddress :
    ((row 0 false 0 0x40).PassReady awaitAddress false ∧
      (row 0 false 0 0x40).sr.extractLsb' 1 7 = (row 0 false 0 0x40).sa) ∧
    ((row 0 false 0 0x00).PassReady awaitAddress false ∧
      (row 0 false 0 0x00).sr.extractLsb' 1 7 ≠ (row 0 false 0 0x00).sa) ∧
    ((row 0 false 0 0x42).PassReady awaitAddress false ∧
      (row 0 false 0 0x42).sr.extractLsb' 1 7 ≠ (row 0 false 0 0x42).sa) := by decide

theorem witness_UnreachablePairsAndReservedCodesGoIdle :
    (row 0 true 4 0).PassReady awaitAddress true ∧ (row 4 false 3 0).PassReady readDataPre false ∧
    ((row 6 false 3 0).PassReady 6 false ∧ 6 ≤ (6 : BitVec 3).toNat) ∧
    ((row 7 true 3 0).PassReady 7 true ∧ 6 ≤ (7 : BitVec 3).toNat) := by decide

theorem witness_PointerByteSetsThePointerModuloN :
    (row 1 false 0 0xFF).PassReady awaitRegisterPointer false ∧ (row 1 false 0 0xFF).n = 256 ∧
    (row16 1 false 0 0x10).PassReady awaitRegisterPointer false := by decide

theorem witness_EndOfTheSlavesAckReleasesSdaAndRearmsTheCounter :
    (row 1 true 0 0).PassReady awaitRegisterPointer true ∧ (row 2 true 3 0).PassReady writeData true ∧
    (row 3 true 3 0).PassReady postWriteAck true := by decide

theorem witness_FirstDataByteIsStoredAtThePointer :
    ((row 2 false 0xFF 0xAB).PassReady writeData false ∧ (row 2 false 0xFF 0xAB).ptr.toNat < (row 2 false 0xFF 0xAB).n ∧
      Memory.wf (row 2 false 0xFF 0xAB).params (row 2 false 0xFF 0xAB).rf = true) ∧
    ((row16 2 false 0x0F 0xAB).PassReady writeData false ∧ (row16 2 false 0x0F 0xAB).ptr.toNat < (row16 2 false 0x0F 0xAB).n ∧
      Memory.wf (row16 2 false 0x0F 0xAB).params (row16 2 false 0x0F 0xAB).rf = true) := by decide

theorem witness_FurtherDataByteAdvancesThePointerUnlessStopped :
    ({ row 3 false 3 0xCD with stopFlag := true }.PassReady postWriteAck false ∧
      { row 3 false 3 0xCD with stopFlag := true }.stopFlag = true) ∧
    ((row 3 false 0xFF 0x11).PassReady postWriteAck false ∧ (row 3 false 0xFF 0x11).stopFlag = false ∧
      Memory.wf (row 3 false 0xFF 0x11).params (row 3 false 0xFF 0x11).rf = true) := by decide

theorem witness_FirstReadByteIsLoadedFromThePointer :
    (row 4 true 0xFF 0).PassReady readDataPre true ∧ (row 4 true 0xFF 0).ptr.toNat < (row 4 true 0xFF 0).n := by decide

theorem witness_SentByteOpensTheMastersAckWindow : (row 5 false 3 0x33).PassReady readAckPoll false := by decide

theorem witness_MastersAckLoadsTheNextByteAndNackEnds :
    ((row16 5 true 0x0F 0x66).PassReady readAckPoll true ∧ (row16 5 true 0x0F 0x66).sr.getLsbD 0 = false) ∧
    ((row 5 true 3 0x67).PassReady readAckPoll true ∧ (row 5 true 3 0x67).sr.getLsbD 0 = true) := by decide

theorem witness_PassesRunExactlyWhenTheyAreSelected :
    (base.rst = false ∧ base.startPend = false ∧ ¬ base.PassReady 0 false) ∧
    ((row 7 true 0xFF 0).rst = false ∧ (row 7 true 0xFF 0).PassReady 7 true ∧
      (row 7 true 0xFF 0).ptr.toNat < (row 7 true 0xFF 0).n) ∧
    ({ row 2 false 3 0 with startPend := true }.rst = false ∧
      ¬ { row 2 false 3 0 with startPend := true }.PassReady 2 false) := by decide

theorem witness_RawBytePortStopsOutsideTheFile :
    ((row16 2 false 0x10 0).n ≤ (row16 2 false 0x10 0).ptr.toNat ∧ (row16 2 false 0x10 0).PassReady writeData false) ∧
    ((row16 4 true 0xFF 0).n ≤ (row16 4 true 0xFF 0).ptr.toNat ∧ (row16 4 true 0xFF 0).PassReady readDataPre true) := by decide

theorem witness_IncrementWrapsModuloN :
    ({ base with ptr := 255 }.ptr.toNat < { base with ptr := 255 }.n ∧ { base with ptr := 255 }.n = 256 ∧
      { base with ptr := 255 }.ptr = 255) ∧
    (State.resetOf p1 0 []).ptr.toNat < (State.resetOf p1 0 []).n := by decide

theorem witness_EngineTurnTakesTheSelectedPass :
    { row 2 false 3 0 with inputs := [.engine] }.rst = false ∧
    { row 2 false 3 0 with inputs := [.engine] }.inputs = .engine :: [] ∧
    { base with inputs := [.engine] }.inputs = .engine :: [] := by decide

theorem witness_PendingStartIsTakenFirstAndDiscardsTheOverflow :
    { row 3 true 4 0 with startPend := true, inputs := [.engine] }.rst = false ∧
    { row 3 true 4 0 with startPend := true, inputs := [.engine] }.startPend = true ∧
    { row 3 true 4 0 with startPend := true, inputs := [.engine] }.ovfPend = true ∧
    { row 3 true 4 0 with startPend := true, inputs := [.engine] }.inputs = .engine :: [] := by decide

theorem witness_PendingEventsWaitForTheirPass :
    ((∃ t, exec (.setU8 3 0x11) (row 2 false 3 0xAB) = .next t) ∧ (row 2 false 3 0xAB).ovfPend = true) ∧
    (∃ t, exec (.getU8 3) { base with startPend := true } = .next t) ∧ { base with startPend := true }.startPend = true :=
  ⟨⟨next_of (by decide), by decide⟩, next_of (by decide), by decide⟩

/-- An invariant state with an overflow pending. -/
theorem row_inv : (row 2 false 0xFF 0xAB).Inv := by constructor <;> decide

/-- An invariant state with a START pending. -/
theorem started_inv : { base with startPend := true }.Inv := by constructor <;> decide

/-- An invariant state with nothing pending. -/
theorem base_inv : base.Inv := by constructor <;> decide

theorem witness_PendingEventIsHandledInOneStep :
    (∃ s : State, s.Inv ∧ s.rst = false ∧ s.sclPull = true ∧ s.inputs = []) ∧
    (∃ s : State, s.Inv ∧ s.rst = false ∧ s.sclPull = true ∧ s.inputs = .bus 0b10#2 :: []) :=
  ⟨⟨row 2 false 0xFF 0xAB, row_inv, by decide⟩,
    ⟨{ base with startPend := true, inputs := [.bus 0b10#2] }, by constructor <;> decide, by decide⟩⟩

theorem witness_UnsignedGetsAnswerTheZeroExtendedBytes :
    base.rst = false ∧ (255#8).toNat + 1 ≤ base.n ∧ (254#8).toNat + 2 ≤ base.n ∧ base.n < (255#8).toNat + 2 ∧
    (252#8).toNat + 4 ≤ base.n ∧ base.n < (253#8).toNat + 4 ∧
    (State.resetOf p16 0 []).rst = false ∧ (State.resetOf p16 0 []).n < (16#8).toNat + 1 := by decide

theorem witness_SignedGetsAnswerTheSignExtendedBytes :
    (State.resetOf p16 0 []).rst = false ∧ (15#8).toNat + 1 ≤ (State.resetOf p16 0 []).n ∧
    (State.resetOf p16 0 []).n < (16#8).toNat + 1 ∧ (14#8).toNat + 2 ≤ (State.resetOf p16 0 []).n ∧
    (State.resetOf p16 0 []).n < (15#8).toNat + 2 ∧ (12#8).toNat + 4 ≤ (State.resetOf p16 0 []).n ∧
    (State.resetOf p16 0 []).n < (13#8).toNat + 4 := by decide

theorem witness_ByteSetsWriteTheLowByteAtTheIndex :
    base.rst = false ∧ Memory.wf base.params base.rf = true ∧ (255#8).toNat + 1 ≤ base.n ∧
    (State.resetOf p16 0 []).rst = false ∧ Memory.wf p16 (State.resetOf p16 0 []).rf = true ∧
    (State.resetOf p16 0 []).n < (16#8).toNat + 1 := by decide

theorem witness_HalfwordSetsWriteTwoBytesBigEndian :
    base.rst = false ∧ Memory.wf base.params base.rf = true ∧ (254#8).toNat + 2 ≤ base.n ∧ base.n < (255#8).toNat + 2 := by
  decide

theorem witness_WordSetsWriteFourBytesBigEndian :
    base.rst = false ∧ Memory.wf base.params base.rf = true ∧ (252#8).toNat + 4 ≤ base.n ∧ base.n < (253#8).toNat + 4 := by
  decide

theorem witness_ReservedWidthIsRejectedBeforeTheBoundCheck : base.rst = false := by decide

theorem witness_ApplicationChecksDecideTheErrorCode :
    encode (.getU32 253) = .command 0b0010#4 253 0 ∧ encode (.reservedWidth true true 0 0) = .command 0b1111#4 0 0 ∧
    encode (.setU8 255 1) = .command 0b1000#4 255 1 ∧ base.rst = false := by decide

theorem witness_ApplicationOperationsTouchOnlyTheRegisterFile :
    encode (.setU16 5 0x1234) = .command 0b1001#4 5 0x1234 ∧ (∃ t, exec (.setU16 5 0x1234) base = .next t) ∧
    ((row 5 true 3 0x67).rst = base.rst ∧ (row 5 true 3 0x67).params = base.params ∧ (row 5 true 3 0x67).rf = base.rf) :=
  ⟨by decide, next_of (by decide), by decide⟩

theorem witness_GetAfterSetAnswersTheValue :
    base.rst = false ∧ Memory.wf base.params base.rf = true ∧ (255#8).toNat + 1 ≤ base.n ∧ (254#8).toNat + 2 ≤ base.n ∧
    (252#8).toNat + 4 ≤ base.n := by decide

theorem witness_ClockSamplesShiftsAndCounts :
    base.ClockReady ∧ { base with ovfEn := true, cnt := 1 }.ClockReady ∧ { base with ovfEn := true, cnt := 0 }.ClockReady := by
  decide

theorem witness_OverflowComesAfterExactlyTheLoadedNumberOfClocks :
    ({ base with ovfEn := true }.ClockReady ∧ { base with ovfEn := true }.ovfEn = true ∧
      (List.replicate 8 true).length ≤ { base with ovfEn := true }.cnt.toNat ∧ 0 < { base with ovfEn := true }.cnt.toNat) ∧
    (base.ClockReady ∧ base.ovfEn = false) ∧
    ({ base with ovfEn := true, cnt := 0 }.ClockReady ∧ { base with ovfEn := true, cnt := 0 }.cnt = 0) ∧
    (encode .ovfWriteDataByte = .event 0b100100#6 ∧ ∃ t, exec .ovfWriteDataByte (row 2 false 3 0xAB) = .next t) :=
  ⟨by decide, by decide, by decide, by decide, next_of (by decide)⟩

theorem witness_LoadedByteIsPresentedMostSignificantBitFirst :
    { base with st := 5, ovfEn := true, sdaOe := true, sr := 0xAB }.ClockReady ∧
    { base with st := 5, ovfEn := true, sdaOe := true, sr := 0xAB }.sdaOe = true ∧
    { base with st := 5, ovfEn := true, sdaOe := true, sr := 0xAB }.cnt = 8 ∧ (List.replicate 7 true).length < 8 := by decide

theorem witness_NoBusActionWhileAnEventIsPending :
    { row 2 false 3 0 with inputs := [.bus 0b11#2] }.rst = false ∧ { row 2 false 3 0 with inputs := [.bus 0b11#2] }.sclPull = true ∧
    encode (.clock false) = .action 0b00#2 ∧ encode (.addrR 0x7F) = .wire 0xFF ∧
    { row 2 false 3 0 with inputs := [.wire 0x40] }.inputs = .wire 0x40 :: [] := by decide

theorem witness_StartConditionRaisesTheStartEvent :
    base.ConditionReady ∧ { base with st := 3, ovfEn := true, cnt := 5 }.ConditionReady := by decide

theorem witness_StopConditionWritesOnlyTheFlag :
    base.ConditionReady ∧ { base with st := 3, ovfEn := true }.ConditionReady := by decide

theorem witness_NoStartOrStopWhileTheBlockPullsSda :
    { base with st := 1, ap := true, ovfEn := true, sdaOe := true, cnt := 1 }.ClockReady ∧
    { base with st := 1, ap := true, ovfEn := true, sdaOe := true, cnt := 1 }.sdaPull = true := by decide

theorem witness_DetachedBlockStaysPassiveUntilAStart :
    base.Inv ∧ base.ovfEn = false ∧ base.startPend = false ∧ ∃ t, exec (.clock false) base = .next t :=
  ⟨base_inv, by decide, by decide, next_of (by decide)⟩

theorem witness_AddressByteOnTheWireReachesTheMatcher :
    { base with ovfEn := true }.AddressPhase ∧ 0x20 = { base with ovfEn := true }.sa ∧ 0x7F ≠ { base with ovfEn := true }.sa := by
  decide

theorem witness_WireByteIsEightClocksAndTheirPasses : base.Inv ∧ base.ClockReady := ⟨base_inv, by decide⟩

theorem witness_DecodeOfEncodeIsTheInstruction :
    (Instr.ovfReservedState 6 true).wf = true ∧ (Instr.setS32 255 0xFFFFFFFF).wf = true := by decide

theorem witness_EncodeOfDecodeIsTheWord :
    decode (.command 0b0110#4 5 7) = .ok (.getS32 5) ∧ decode (.event 0b11_111_1#6) = .error .eventNeverFormed := ⟨rfl, rfl⟩

theorem witness_StepRunsTheInstructionOfTheTurn :
    ({ base with inputs := [.app 0b1001#4 5 0x1234] }.inputs = .app 0b1001#4 5 0x1234 :: [] ∧
      decode (.command 0b1001#4 5 0x1234) = .ok (.setU16 5 0x1234)) ∧
    ({ base with inputs := [.bus 0b10#2] }.inputs = .bus 0b10#2 :: [] ∧ { base with inputs := [.bus 0b10#2] }.engineReady = false ∧
      decode (.action 0b10#2) = .ok .startCond) ∧
    ({ base with inputs := [.wire 0x40] }.inputs = .wire 0x40 :: [] ∧ { base with inputs := [.wire 0x40] }.engineReady = false ∧
      decode (.wire 0x40) = .ok (.addrW 0x20)) ∧
    ({ row 2 false 3 0 with inputs := [.engine] }.inputs = .engine :: [] ∧
      { row 2 false 3 0 with inputs := [.engine] }.engineReady = true ∧
      decode (.event { row 2 false 3 0 with inputs := [.engine] }.key) = .ok .ovfWriteDataByte) ∧
    ((row 2 false 3 0).inputs = [] ∧ (row 2 false 3 0).engineReady = true ∧ base.inputs = [] ∧ base.engineReady = false) :=
  ⟨⟨rfl, rfl⟩, ⟨rfl, by decide, rfl⟩, ⟨rfl, by decide, rfl⟩, ⟨rfl, by decide, rfl⟩, by decide⟩

theorem witness_EveryStepKeepsTheInvariants : (row 2 false 0xFF 0xAB).Inv ∧ ∃ t, step (row 2 false 0xFF 0xAB) = .next t :=
  ⟨row_inv, next_of (by decide)⟩

theorem witness_EveryReachableStateMeetsTheInvariants : Reachable base := .reset p256 0x20 []

theorem witness_NoConditionStopsTheBlock : (row 2 false 0xFF 0xAB).Inv ∧ { base with startPend := true }.Inv :=
  ⟨row_inv, started_inv⟩

theorem witness_OnlyPointerByteAndIncrementsWriteThePointer :
    (∃ t, exec .ovfPostWriteAckByte (row 3 false 0xFF 0x11) = .next t) ∧ ∀ x, encode .ovfPostWriteAckByte ≠ .wire x :=
  ⟨next_of (by decide), fun x h => by simp [encode] at h⟩

theorem witness_EachElementIsWrittenOnlyByItsSteps : ∃ t, exec (.setU8 255 1) (row 3 false 0xFF 0x11) = .next t :=
  next_of (by decide)

theorem witness_BothPortsNameTheSameBytes :
    ((row 2 false 0xFF 0xAB).PassReady writeData false ∧ Memory.wf p256 (row 2 false 0xFF 0xAB).rf = true) ∧
    (∃ t, exec .ovfWriteDataByte (row 2 false 0xFF 0xAB) = .next t) ∧
    ((row 4 true 252 0).PassReady readDataPre true ∧ Memory.wf p256 (row 4 true 252 0).rf = true ∧
      (row 4 true 252 0).ptr.toNat + 4 ≤ (row 4 true 252 0).n) :=
  ⟨by decide, next_of (by decide), by decide⟩

theorem witness_PassAndApplicationOperationMayGoInEitherOrder :
    (row 2 false 0xFF 0xAB).PassReady writeData false ∧ (row 2 false 0xFF 0xAB).ptr.toNat < (row 2 false 0xFF 0xAB).n ∧
    Memory.wf p256 (row 2 false 0xFF 0xAB).rf = true ∧
    { row 2 false 0xFF 0xAB with inputs := [.app 0b1000#4 0xFF 0x11, .engine] }.inputs =
      .app 0b1000#4 (row 2 false 0xFF 0xAB).ptr 0x11 :: .engine :: [] ∧
    { row 2 false 0xFF 0xAB with inputs := [.engine, .app 0b1000#4 0xFF 0x11] }.inputs =
      .engine :: .app 0b1000#4 (row 2 false 0xFF 0xAB).ptr 0x11 :: [] := by decide

theorem witness_WriteTransactionStoresItsBytesAndAcksEach :
    let s := State.resetOf p16 0x20 (turns (writeTranscript 0x20 0x1F [0xAB, 0xCD]))
    s.ConditionReady ∧ Memory.wf s.params s.rf = true ∧ s.inputs = turns (writeTranscript s.sa 0x1F [0xAB, 0xCD]) :=
  ⟨by decide, by decide, rfl⟩

theorem witness_WriteTransactionOfNoBytes :
    let s := { base with st := 3, ovfEn := true, inputs := turns (writeTranscript 0x20 0xFF []) }
    s.ConditionReady ∧ Memory.wf s.params s.rf = true ∧ s.inputs = turns (writeTranscript s.sa 0xFF []) :=
  ⟨by decide, by decide, rfl⟩

theorem witness_ReadTransactionSendsTheBytesFromThePointerOn :
    let s := { State.resetOf p16 0x20 (turns (readTranscript 0x20 1)) with ptr := 0x0F }
    s.ConditionReady ∧ s.ptr.toNat < s.n ∧ s.inputs = turns (readTranscript s.sa 1) :=
  ⟨by decide, by decide, rfl⟩

theorem witness_PointerReadSendsTheBytesFromTheGivenPointerOn :
    let s := State.resetOf p16 0x20 (turns (ptrReadTranscript 0x20 0x1F 0))
    s.ConditionReady ∧ s.inputs = turns (ptrReadTranscript s.sa 0x1F 0) :=
  ⟨by decide, rfl⟩

theorem witness_TransactionToAnotherAddressHasNoEffect :
    let s := State.resetOf p256 0x20 (turns (tokS ++ tokWB ((0x21 : BitVec 7) ++ BitVec.ofBool false) ++ (tokWB 0x05 ++ tokP)))
    s.ConditionReady ∧ (0x21 : BitVec 7) ≠ s.sa ∧ 0b10#2 ∉ tokWB 0x05 ++ tokP ∧
      s.inputs = turns (tokS ++ tokWB ((0x21 : BitVec 7) ++ BitVec.ofBool false) ++ (tokWB 0x05 ++ tokP)) :=
  ⟨by decide, by decide, by decide, rfl⟩

theorem witness_TranscriptHandlesThePendingEventBeforeItsNextEntry :
    let app := { row 2 false 0xFF 0xAB with inputs := schedule (tokApp (.setU8 0xFF 0x11) ++ tokBus tokP) }
    let act := { base with startPend := true, inputs := schedule (tokBus tokK) }
    (app.Inv ∧ app.rst = false ∧ app.sclPull = true ∧
      app.inputs = schedule (.app 0b1000#4 0xFF 0x11 :: tokBus tokP)) ∧
    (act.Inv ∧ act.rst = false ∧ act.sclPull = true ∧ act.inputs = schedule [.act 0b01#2]) ∧
    (base.Inv ∧ base.rst = false ∧ base.sclPull = false ∧ base.inputs = schedule []) :=
  ⟨⟨by constructor <;> decide, by decide, by decide, rfl⟩, ⟨by constructor <;> decide, by decide, by decide, rfl⟩,
    base_inv, by decide, by decide, rfl⟩

theorem witness_OperationBetweenTwoReadBytesLeavesTheLoadedByte :
    let s := { row16 5 false 0x0F 0x1F with
      cnt := 8, sdaOe := true, ovfPend := false,
      inputs := schedule (tokBus tokRBack ++ tokApp (.setU8 0 0xEE) ++ tokBus (tokRBack ++ tokRBnack ++ tokP)) }
    s.ClockReady ∧ s.st = readAckPoll ∧ s.ap = false ∧ s.sdaOe = true ∧ s.ovfEn = true ∧ s.cnt = 8 ∧
    (∃ cmd idx w, encode (.setU8 0 0xEE) = .command cmd idx w) ∧
    s.inputs = schedule (tokBus tokRBack ++ tokApp (.setU8 0 0xEE) ++ tokBus (tokRBack ++ tokRBnack ++ tokP)) :=
  ⟨by decide, by decide, by decide, by decide, by decide, by decide, ⟨_, _, _, rfl⟩, rfl⟩

end Sys2Proof.Tests
end

/-!
PROOFS. The passes of the protocol engine (40_protocol_fsm.md): what each enabled pass writes and what it leaves unchanged.
-/

namespace Sys2Proof.Machine

section PassRules

variable {s t : State} {st : BitVec 3} {ap : Bool} {f : State → Result}

/-- An enabled OVF pass answers what its body answers, with the event cleared (R115). -/
theorem ovfFrame_completes (h : s.PassReady st ap) (hf : f s = .next t) :
    ovfFrame st ap s f = .next { t with ovfPend := false } := by
  obtain ⟨hrst, hstart, hovf, hst, hap⟩ := h
  rw [ovfFrame_of hrst hstart hovf hst hap, hf, andThen_next]

/-- An enabled OVF pass whose body is `go_idle` (R110). -/
theorem ovfFrame_goIdle (h : s.PassReady st ap) (hf : f s = .next s.goIdle) :
    ovfFrame st ap s f =
      .next { s with st := awaitAddress, ap := false, sdaOe := false, ovfEn := false, cnt := 8, ovfPend := false } :=
  ovfFrame_completes h hf

/-- An enabled OVF pass whose body is `end_ack` (R112). -/
theorem ovfFrame_endAck (h : s.PassReady st ap) (hf : f s = .next s.endAck) :
    ovfFrame st ap s f = .next { s with sdaOe := false, cnt := 8, ap := false, ovfPend := false } :=
  ovfFrame_completes h hf

theorem wrapPtr_eq_self (h : s.n = 256) (b : Byte) : wrapPtr s.n b.toNat = b := by
  apply BitVec.eq_of_toNat_eq
  rw [s.toNat_wrapPtr, h]
  exact Nat.mod_eq_of_lt b.isLt

end PassRules

/-- Settles O7: the pointer the pass writes is `wrapPtr`, whose value is `sr mod N`. -/
theorem pointerByteSetsThePointerModuloN : Obligations.PointerByteSetsThePointerModuloN := by
  intro s h
  refine ⟨?_, s.toNat_wrapPtr _, fun hn => wrapPtr_eq_self hn s.sr⟩
  have hpass : execOvfAwaitRegisterPointerByte s = _ := ovfFrame_completes h rfl
  exact hpass

/-- Settles O9: `ptr < N`, so the raw port writes, and a read after the write gives the file. -/
theorem firstDataByteIsStoredAtThePointer : Obligations.FirstDataByteIsStoredAtThePointer := by
  intro s h hptr hwf
  have hpass : execOvfWriteDataByte s = _ := ovfFrame_completes h (rawWrite_eq_next.2 ⟨hptr, rfl⟩)
  exact ⟨_, hpass, rfl, fun i => State.rfByte_setRfByte hwf⟩

/-- Settles O10: by `stop_flag`; the increment is below N, so the store completes whatever `ptr` was. -/
theorem furtherDataByteAdvancesThePointerUnlessStopped :
    Obligations.FurtherDataByteAdvancesThePointerUnlessStopped := by
  intro s h
  constructor
  · intro hstop
    show execOvfPostWriteAckByte s = _
    exact ovfFrame_goIdle h (if_pos hstop)
  · intro hstop hwf
    have hpass : execOvfPostWriteAckByte s = _ :=
      ovfFrame_completes h ((if_neg (ne_true_of_eq_false hstop)).trans (rawWrite_eq_next.2 ⟨s.incPtr_lt, rfl⟩))
    refine ⟨_, hpass, rfl, s.toNat_incPtr, fun i => ?_⟩
    rw [← s.toNat_incPtr]
    exact State.rfByte_setRfByte (s := { s with ptr := s.incPtr }) hwf

/-- Settles O13: by the master's bit `sr[0]`; the increment is below N, so the load completes whatever `ptr` was. -/
theorem mastersAckLoadsTheNextByteAndNackEnds : Obligations.MastersAckLoadsTheNextByteAndNackEnds := by
  intro s h
  constructor
  · intro hack
    have hpass : execOvfReadAckPollAck s = _ :=
      ovfFrame_completes h ((if_neg (ne_true_of_eq_false hack)).trans (rawRead_eq_next.2 ⟨s.incPtr_lt, rfl⟩))
    refine ⟨_, hpass, ?_, s.toNat_incPtr⟩
    rw [← s.toNat_incPtr]
    rfl
  · intro hnack
    show execOvfReadAckPollAck s = _
    exact ovfFrame_goIdle h (if_pos hnack)

/-- Settles O4: the frame clears both events, and the body reads neither the key nor the state. -/
theorem startPassRestartsTheTransactionAndKeepsThePointer :
    Obligations.StartPassRestartsTheTransactionAndKeepsThePointer := by
  intro st ap s hrst hstart
  show execStart st ap s = _
  exact startFrame_eq_next.2 ⟨hrst, hstart, rfl⟩

/-- Settles O5: by the comparison of all 7 bits with `sa`. -/
theorem addressMatcherAcksExactlyItsOwnAddress : Obligations.AddressMatcherAcksExactlyItsOwnAddress := by
  intro s h
  constructor
  · intro hmatch
    have hpass : execOvfAwaitAddressByte s = _ := ovfFrame_completes h (congrArg Host.Outcome.next (if_pos hmatch))
    exact hpass
  · intro hother
    show execOvfAwaitAddressByte s = _
    exact ovfFrame_goIdle h (congrArg Host.Outcome.next (if_neg hother))

/-- Settles O6: each of the three bodies is `go_idle`. -/
theorem unreachablePairsAndReservedCodesGoIdle : Obligations.UnreachablePairsAndReservedCodesGoIdle := by
  rintro s i st ap h (⟨rfl, rfl, rfl⟩ | ⟨rfl, rfl, rfl⟩ | ⟨rfl, hcode⟩)
  · show execOvfAwaitAddressAck s = _
    exact ovfFrame_goIdle h rfl
  · show execOvfReadDataPreByte s = _
    exact ovfFrame_goIdle h rfl
  · show execOvfReservedState st ap s = _
    have hreserved : reservedCode st = true := decide_eq_true hcode
    exact ovfFrame_goIdle h (if_pos hreserved)

/-- Settles O8: each of the three bodies is `end_ack`. -/
theorem endOfTheSlavesAckReleasesSdaAndRearmsTheCounter :
    Obligations.EndOfTheSlavesAckReleasesSdaAndRearmsTheCounter := by
  rintro s i st h (⟨rfl, rfl⟩ | ⟨rfl, rfl⟩ | ⟨rfl, rfl⟩)
  · show execOvfAwaitRegisterPointerAck s = _
    exact ovfFrame_endAck h rfl
  · show execOvfWriteDataAck s = _
    exact ovfFrame_endAck h rfl
  · show execOvfPostWriteAckAck s = _
    exact ovfFrame_endAck h rfl

/-- Settles O11: `ptr < N`, so the raw port answers `rf[ptr]`, which `load_tx` takes. -/
theorem firstReadByteIsLoadedFromThePointer : Obligations.FirstReadByteIsLoadedFromThePointer := by
  intro s h hptr
  have hpass : execOvfReadDataPreAck s = _ := ovfFrame_completes h (rawRead_eq_next.2 ⟨hptr, rfl⟩)
  exact hpass

/-- Settles O12: the body writes the three fields, and the exit clears the event. -/
theorem sentByteOpensTheMastersAckWindow : Obligations.SentByteOpensTheMastersAckWindow := by
  intro s h
  have hpass : execOvfReadAckPollByte s = _ := ovfFrame_completes h rfl
  exact hpass

/-- Settles O16: the value of the increment, taken at N = 256 and `ptr = 255` for the last clause. -/
theorem incrementWrapsModuloN : Obligations.IncrementWrapsModuloN := by
  intro s _
  refine ⟨s.toNat_incPtr, s.incPtr_lt, fun hn hptr => ?_⟩
  apply BitVec.eq_of_toNat_eq
  rw [s.toNat_incPtr, hn, hptr]
  rfl

end Sys2Proof.Machine

/-!
PROOFS. The application port (41_register_file_access.md): what the two checks of an operation decide, what a GET answers
and a SET stores, and that neither reads nor writes the protocol side.
-/

namespace Sys2Proof.Machine

section AccessRules

variable {s t : State} {i w : Nat} {idx : Byte}

/-! ### The bound check -/

/-- Within bounds, an operation answers its result (R152). -/
theorem appFrame_accepts (hrst : s.rst = false) (h : idx.toNat + w ≤ s.n) : appFrame s idx w t = .next t :=
  appFrame_eq_next.2 ⟨hrst, (if_neg (Nat.not_lt.2 h)).symm⟩

/-- Out of bounds, an operation answers `(0, 1)` and writes nothing else (R152). -/
theorem appFrame_rejects (hrst : s.rst = false) (h : s.n < idx.toNat + w) :
    appFrame s idx w t = .next { s with rdata := 0, err := 1 } :=
  appFrame_eq_next.2 ⟨hrst, (if_pos h).symm⟩

/-! ### GETs -/

theorem zext32_byte (b : BitVec 8) : zext32 b = 0#24 ++ b := BitVec.setWidth_eq_append (by decide)

theorem zext32_halfword (v : BitVec 16) : zext32 v = 0#16 ++ v := BitVec.setWidth_eq_append (by decide)

theorem toInt_sext32 {n : Nat} (h : n ≤ 32) (v : BitVec n) : (sext32 v).toInt = v.toInt :=
  BitVec.toInt_signExtend_of_le h

/-! ### SETs: MemWrite in terms of the bytes of `wdata` -/

/-- A byte of `wdata[15:0]` is that byte of `wdata`. -/
theorem extractLsb'_low16 {k : Nat} (h : k + 8 ≤ 16) (v : Word) : (low16 v).extractLsb' k 8 = v.extractLsb' k 8 := by
  ext l hl
  have hkl : k + l < 16 := by omega
  simp [low16, hkl]

/-- The bytes after MemWrite of two: the later write is at another index, so either may be asked for first. -/
theorem State.rfByte_memWrite16 (hwf : Memory.wf s.params s.rf = true) (h : i + 2 ≤ s.n) (v : BitVec 16) (j : Nat) :
    (s.memWrite16 i v).rfByte j =
      if j = i then v.extractLsb' 8 8 else if j = i + 1 then v.extractLsb' 0 8 else s.rfByte j := by
  have hwf₁ := State.wf_setRfByte (b := v.extractLsb' 8 8) hwf (by omega : i < s.n)
  rw [State.memWrite16, State.rfByte_setRfByte hwf₁, State.rfByte_setRfByte hwf]
  exact ite_ite_comm (j = i + 1) (j = i) _ _ (by omega)

/-- The bytes after MemWrite of four: each write is below N, so the file stays canonical for the read after it. -/
theorem State.rfByte_memWrite32 (hwf : Memory.wf s.params s.rf = true) (h : i + 4 ≤ s.n) (v : BitVec 32) (j : Nat) :
    (s.memWrite32 i v).rfByte j =
      if j = i then v.extractLsb' 24 8
      else if j = i + 1 then v.extractLsb' 16 8
      else if j = i + 2 then v.extractLsb' 8 8
      else if j = i + 3 then v.extractLsb' 0 8
      else s.rfByte j := by
  have hwf₁ := State.wf_setRfByte (b := v.extractLsb' 24 8) hwf (by omega : i < s.n)
  have hwf₂ := State.wf_setRfByte (b := v.extractLsb' 16 8) hwf₁ (by simp; omega : i + 1 < _)
  have hwf₃ := State.wf_setRfByte (b := v.extractLsb' 8 8) hwf₂ (by simp; omega : i + 2 < _)
  rw [State.memWrite32, State.rfByte_setRfByte hwf₃, State.rfByte_setRfByte hwf₂, State.rfByte_setRfByte hwf₁,
    State.rfByte_setRfByte hwf]
  grind

/-- An instruction that writes the register file from `s` to `u` under the bound check answers `(0, 0)` and the bytes of
`u`, or `(0, 1)` and writes nothing. -/
theorem set_answers {ins : Instr} {u : State} {bytes : Nat → Byte}
    (hexec : exec ins s = appFrame s idx w (u.answer 0 0)) (hrst : s.rst = false) (hframe : u = { s with rf := u.rf })
    (hbytes : idx.toNat + w ≤ s.n → ∀ j, u.rfByte j = bytes j) :
    (idx.toNat + w ≤ s.n →
      ∃ t, exec ins s = .next t ∧ t = { s with rf := t.rf, rdata := 0, err := 0 } ∧ ∀ j, t.rfByte j = bytes j) ∧
    (s.n < idx.toNat + w → exec ins s = .next { s with rdata := 0, err := 1 }) := by
  refine ⟨fun h => ⟨u.answer 0 0, hexec.trans (appFrame_accepts hrst h), ?_, hbytes h⟩,
    fun h => hexec.trans (appFrame_rejects hrst h)⟩
  rw [hframe]
  rfl

/-! ### Every command of the port -/

/-- What an application operation sees of the state: the parameters and the register file, all else as after reset. -/
def State.fileOnly (s : State) : State := { State.resetOf s.params 0 [] with rf := s.rf }

/-- An accepted operation: it answers code 0, and the file and the data it answers are made from the file alone. -/
def IsAccess (f : State → State) : Prop :=
  ∀ s, f s = { s with rf := (f s.fileOnly).rf, rdata := (f s.fileOnly).rdata, err := 0 }

/-- Every command is the reserved width, or an access under the bound check of its width (R152, R165, R166). -/
theorem command_cases {ins : Instr} {cmd : BitVec 4} {wdata : Word} (hi : encode ins = .command cmd idx wdata) :
    ((cmd.extractLsb' 0 2).toNat = 3 ∧ ∀ s, exec ins s = running s (.next (s.answer 0 2))) ∨
    ((cmd.extractLsb' 0 2).toNat ≠ 3 ∧ ∃ f, IsAccess f ∧
      ∀ s, exec ins s = appFrame s idx (2 ^ (cmd.extractLsb' 0 2).toNat) (f s)) := by
  cases ins with
  | reservedWidth dir sgn =>
    cases hi
    exact .inl ⟨by cases dir <;> cases sgn <;> rfl, fun _ => rfl⟩
  | getU8 | getU16 | getU32 | getS8 | getS16 | getS32 | setU8 | setU16 | setU32 | setS8 | setS16 | setS32 =>
    cases hi
    exact .inr ⟨by decide, _, fun _ => rfl, fun _ => rfl⟩
  | _ => nomatch hi

end AccessRules

/-- Settles O21: by the bound check at each width; an extension by zeros is a concatenation with zeros. -/
theorem unsignedGetsAnswerTheZeroExtendedBytes : Obligations.UnsignedGetsAnswerTheZeroExtendedBytes := by
  intro idx s hrst
  refine ⟨fun h => ?_, appFrame_rejects hrst, fun h => ?_, appFrame_rejects hrst,
    appFrame_accepts hrst, appFrame_rejects hrst⟩
  · rw [← zext32_byte]
    exact appFrame_accepts hrst h
  · rw [← zext32_halfword]
    exact appFrame_accepts hrst h

/-- Settles O22: as O21, with the answer `sext32` of the bytes, which keeps the value. -/
theorem signedGetsAnswerTheSignExtendedBytes : Obligations.SignedGetsAnswerTheSignExtendedBytes := by
  intro idx s hrst
  exact ⟨fun h => ⟨_, toInt_sext32 (by decide) _, appFrame_accepts hrst h⟩, appFrame_rejects hrst,
    fun h => ⟨_, toInt_sext32 (by decide) _, appFrame_accepts hrst h⟩, appFrame_rejects hrst,
    appFrame_accepts hrst, appFrame_rejects hrst⟩

/-- Settles O23: both rows write the same byte, and a read after the write gives the file. -/
theorem byteSetsWriteTheLowByteAtTheIndex : Obligations.ByteSetsWriteTheLowByteAtTheIndex := by
  intro idx wdata i s hi hrst hwf
  have hexec : exec i s = appFrame s idx 1 ((s.memWrite8 idx.toNat (low8 wdata)).answer 0 0) := by
    rcases hi with rfl | rfl <;> rfl
  exact set_answers hexec hrst rfl fun _ _ => State.rfByte_setRfByte hwf

/-- Settles O24: both rows write the same two bytes, once the bound check has passed. -/
theorem halfwordSetsWriteTwoBytesBigEndian : Obligations.HalfwordSetsWriteTwoBytesBigEndian := by
  intro idx wdata i s hi hrst hwf
  have hexec : exec i s = appFrame s idx 2 ((s.memWrite16 idx.toNat (low16 wdata)).answer 0 0) := by
    rcases hi with rfl | rfl <;> rfl
  refine set_answers hexec hrst rfl fun h j => ?_
  rw [State.rfByte_memWrite16 hwf h, extractLsb'_low16 (by decide), extractLsb'_low16 (by decide)]

/-- Settles O25: both rows write the same four bytes, once the bound check has passed. -/
theorem wordSetsWriteFourBytesBigEndian : Obligations.WordSetsWriteFourBytesBigEndian := by
  intro idx wdata i s hi hrst hwf
  have hexec : exec i s = appFrame s idx 4 ((s.memWrite32 idx.toNat wdata).answer 0 0) := by
    rcases hi with rfl | rfl <;> rfl
  exact set_answers hexec hrst rfl fun h => State.rfByte_memWrite32 hwf h wdata

/-- Settles O27: the reserved width is answered before the bound check; any other command is an access under it. -/
theorem applicationChecksDecideTheErrorCode : Obligations.ApplicationChecksDecideTheErrorCode := by
  intro i cmd idx w s hi hrst
  rcases command_cases hi with ⟨hcode, hexec⟩ | ⟨hcode, f, hf, hexec⟩
  · exact ⟨s.answer 0 2, (hexec s).trans (running_of hrst), (if_pos hcode).symm, fun _ => rfl⟩
  · have herr : (f s).err = 0 := by rw [hf s]
    by_cases hbound : idx.toNat + 2 ^ (cmd.extractLsb' 0 2).toNat > s.n
    · refine ⟨s.answer 0 1, (hexec s).trans (appFrame_rejects hrst hbound), ?_, fun _ => rfl⟩
      rw [if_neg hcode, if_pos hbound, State.answer_err]
    · refine ⟨f s, (hexec s).trans (appFrame_accepts hrst (Nat.not_lt.1 hbound)), ?_, fun h => absurd herr h⟩
      rw [if_neg hcode, if_neg hbound, herr]

/-- Settles O28: what an access answers is made from the file alone, and the checks read only N and the operands. -/
theorem applicationOperationsTouchOnlyTheRegisterFile : Obligations.ApplicationOperationsTouchOnlyTheRegisterFile := by
  intro i cmd idx w s t hi h
  obtain ⟨hrst, hframe, -⟩ := app_effect hi h
  refine ⟨hframe, fun s' hrst' hparams hrf => ?_⟩
  rcases command_cases hi with ⟨-, hexec⟩ | ⟨-, f, hf, hexec⟩
  · obtain ⟨-, ht⟩ := running_eq_next.1 ((hexec s).symm.trans h)
    cases ht
    exact ⟨s'.answer 0 2, (hexec s').trans (running_of (hrst'.trans hrst)), hrf, rfl, rfl⟩
  · obtain ⟨-, rfl⟩ := appFrame_eq_next.1 ((hexec s).symm.trans h)
    refine ⟨_, (hexec s').trans (appFrame_eq_next.2 ⟨hrst'.trans hrst, rfl⟩), ?_⟩
    have hn : s'.n = s.n := congrArg Params.n hparams
    have hfile : s'.fileOnly = s.fileOnly := by simp only [State.fileOnly, hparams, hrf]
    rw [hn]
    split
    · exact ⟨hrf, rfl, rfl⟩
    · rw [hf s', hf s, hfile]
      exact ⟨rfl, rfl, rfl⟩

/-- Settles O26: the row's meaning has no bound check and reads no operand. -/
theorem reservedWidthIsRejectedBeforeTheBoundCheck : Obligations.ReservedWidthIsRejectedBeforeTheBoundCheck := by
  intro dir sgn idx wdata s hrst
  show execReservedWidth dir sgn idx wdata s = _
  exact running_of hrst

end Sys2Proof.Machine

/-!
PROOFS. The bus master's actions (42_bus_and_bit_counter.md): what one CLOCK writes, what any number of CLOCKs up to the
overflow leaves in the counter and the shift register, and what START and STOP write.
-/

namespace Sys2Proof.Machine

section BusRules

variable {s t : State}

/-! ### One CLOCK -/

/-- The counter steps down when the event is attached and it is not at 0 (R183). -/
theorem State.cntAfterClock_eq (s : State) :
    s.cntAfterClock = if s.ovfEn = true ∧ 0 < s.cnt.toNat then s.cnt - 1 else s.cnt := by
  simp only [State.cntAfterClock, State.counting, Bool.and_eq_true, decide_eq_true_eq]

/-- The event is raised by the CLOCK that finds the counter at 1 (R183, R184). -/
theorem State.ovfAfterClock_eq (s : State) :
    s.ovfAfterClock = (s.ovfPend || decide (s.ovfEn = true ∧ s.cnt = 1)) := by
  rw [State.ovfAfterClock, State.cntAfterClock]
  congr 1
  cases hcount : s.counting with
  | true =>
    obtain ⟨hen, -⟩ := Bool.and_eq_true_iff.1 hcount
    have hone : s.cnt - 1 = 0 ↔ s.cnt = 1 := BitVec.sub_eq_iff_eq_add
    rw [Bool.true_and, if_pos rfl, Bool.beq_eq_decide_eq, decide_eq_decide, hone]
    exact (and_iff_right hen).symm
  | false =>
    have hne : ¬ (s.ovfEn = true ∧ s.cnt = 1) := by
      rintro ⟨hen, hcnt⟩
      simp [State.counting, hen, hcnt] at hcount
    rw [Bool.false_and, decide_eq_false hne]

/-- While the event is attached the counter loses one, down to 0, where it stays (R184). -/
theorem State.toNat_cntAfterClock (h : s.ovfEn = true) : s.cntAfterClock.toNat = s.cnt.toNat - 1 := by
  by_cases hpos : 0 < s.cnt.toNat
  · rw [State.cntAfterClock_eq, if_pos ⟨h, hpos⟩]
    bv_omega
  · rw [State.cntAfterClock_eq, if_neg (mt And.right hpos)]
    omega

/-- Detached, or at 0, the counter does not count (R184). -/
theorem State.not_counting_of_resting (h : s.ovfEn = false ∨ s.cnt = 0) : ¬ (s.ovfEn = true ∧ 0 < s.cnt.toNat) := by
  rintro ⟨hen, hpos⟩
  rcases h with hdetached | hzero
  · exact absurd hen (ne_true_of_eq_false hdetached)
  · exact hpos.ne' (congrArg BitVec.toNat hzero)

/-- A block that drives SDA pulls it exactly for a 0 in `sr[7]` (R181). -/
theorem State.sdaPull_of_driving (h : s.sdaOe = true) : s.sdaPull = !s.sr.getLsbD 7 := by
  rw [State.sdaPull, h, Bool.true_and]

/-! ### Several CLOCKs -/

/-- The writes of CLOCKs with these levels in order; `clocks_eq_clockedAll` says when the master can take them all. -/
def State.clockedAll (s : State) (bs : List Bool) : State := bs.foldl State.clocked s

@[simp] theorem State.clockedAll_nil : s.clockedAll [] = s := rfl

@[simp] theorem State.clockedAll_cons (b : Bool) (bs : List Bool) :
    s.clockedAll (b :: bs) = (s.clocked b).clockedAll bs := rfl

theorem State.clockedAll_concat (bs : List Bool) (b : Bool) :
    s.clockedAll (bs ++ [b]) = (s.clockedAll bs).clocked b := List.foldl_concat ..

theorem clocks_concat (bs : List Bool) (b : Bool) :
    clocks (bs ++ [b]) s = andThen (clocks bs s) (exec (.clock b)) := List.foldl_concat ..

/-- CLOCKs write the level, the shift register, the counter and the event, and nothing else (R183). -/
theorem State.clockedAll_frame (bs : List Bool) :
    s.clockedAll bs =
      { s with line := (s.clockedAll bs).line, sr := (s.clockedAll bs).sr, cnt := (s.clockedAll bs).cnt,
               ovfPend := (s.clockedAll bs).ovfPend } := by
  induction bs generalizing s with
  | nil => rfl
  | cons b bs ih => exact ih (s := s.clocked b)

@[simp] theorem State.clockedAll_rst (bs : List Bool) : (s.clockedAll bs).rst = s.rst := by rw [clockedAll_frame]

@[simp] theorem State.clockedAll_startPend (bs : List Bool) : (s.clockedAll bs).startPend = s.startPend := by
  rw [clockedAll_frame]

@[simp] theorem State.clockedAll_sdaOe (bs : List Bool) : (s.clockedAll bs).sdaOe = s.sdaOe := by rw [clockedAll_frame]

/-- While the event is attached, each CLOCK takes one from the counter, down to 0. -/
theorem State.toNat_clockedAll_cnt (h : s.ovfEn = true) (bs : List Bool) :
    (s.clockedAll bs).cnt.toNat = s.cnt.toNat - bs.length := by
  induction bs generalizing s with
  | nil => rfl
  | cons b bs ih =>
    rw [clockedAll_cons, ih (s := s.clocked b) h, clocked_cnt, toNat_cntAfterClock h, List.length_cons]
    omega

/-- Detached, or at 0, the counter stays. -/
theorem State.clockedAll_cnt_of_resting (h : s.ovfEn = false ∨ s.cnt = 0) (bs : List Bool) :
    (s.clockedAll bs).cnt = s.cnt := by
  induction bs generalizing s with
  | nil => rfl
  | cons b bs ih =>
    have hcnt : (s.clocked b).cnt = s.cnt := by
      rw [clocked_cnt, cntAfterClock_eq, if_neg (not_counting_of_resting h)]
    rw [clockedAll_cons, ih (s := s.clocked b) (h.imp id hcnt.trans), hcnt]

/-- The event is pending exactly if it was, or if the CLOCKs are enough to bring an attached counter to 0. -/
theorem State.clockedAll_ovfPend (bs : List Bool) :
    (s.clockedAll bs).ovfPend =
      (s.ovfPend || decide (s.ovfEn = true ∧ 0 < s.cnt.toNat ∧ s.cnt.toNat ≤ bs.length)) := by
  induction bs generalizing s with
  | nil =>
    have hnone : ¬ (s.ovfEn = true ∧ 0 < s.cnt.toNat ∧ s.cnt.toNat ≤ ([] : List Bool).length) :=
      fun ⟨_, hpos, hle⟩ => hpos.not_ge hle
    rw [clockedAll_nil, decide_eq_false hnone, Bool.or_false]
  | cons b bs ih =>
    rw [clockedAll_cons, ih, clocked_ovfPend, ovfAfterClock_eq, clocked_ovfEn, clocked_cnt, List.length_cons, Bool.or_assoc,
      ← Bool.decide_or]
    congr 2
    by_cases hen : s.ovfEn = true
    · rw [toNat_cntAfterClock hen]
      have hone : s.cnt = 1 ↔ s.cnt.toNat = 1 := BitVec.toNat_inj.symm
      simp only [hen, true_and, hone, eq_iff_iff]
      omega
    · simp [hen]

/-- Each CLOCK moves the bits one place up. -/
theorem State.getLsbD_clockedAll_sr {bs : List Bool} {i : Nat} (h : bs.length ≤ i) (hi : i < 8) :
    (s.clockedAll bs).sr.getLsbD i = s.sr.getLsbD (i - bs.length) := by
  induction bs generalizing s with
  | nil => rfl
  | cons b bs ih =>
    rw [List.length_cons] at h ⊢
    rw [clockedAll_cons, ih (by omega), clocked_sr, getLsbD_shiftIn, if_neg (by omega), decide_eq_true (by omega),
      Bool.true_and, Nat.sub_sub]

/-- CLOCKs that do not bring the counter to its overflow leave SCL free. -/
theorem State.clockReady_clockedAll {bs : List Bool} (h : s.ClockReady)
    (hquiet : ¬ (s.ovfEn = true ∧ 0 < s.cnt.toNat ∧ s.cnt.toNat ≤ bs.length)) : (s.clockedAll bs).ClockReady := by
  obtain ⟨hrst, hscl⟩ := h
  obtain ⟨hstart, hovf⟩ := sclPull_eq_false.1 hscl
  refine ⟨(clockedAll_rst bs).trans hrst, sclPull_eq_false.2 ⟨(clockedAll_startPend bs).trans hstart, ?_⟩⟩
  rw [clockedAll_ovfPend, hovf, decide_eq_false hquiet, Bool.or_self]

/-- CLOCKs of which none but the last brings the counter to its overflow all complete. -/
theorem clocks_eq_clockedAll {bs : List Bool} (h : s.ClockReady)
    (hlast : ¬ (s.ovfEn = true ∧ 0 < s.cnt.toNat ∧ s.cnt.toNat < bs.length)) : clocks bs s = .next (s.clockedAll bs) := by
  induction bs using List.reverseRecOn with
  | nil => rfl
  | append_singleton bs b ih =>
    rw [List.length_append, List.length_singleton, Nat.lt_succ_iff] at hlast
    have hready : (s.clockedAll bs).ClockReady := State.clockReady_clockedAll h hlast
    rw [clocks_concat, ih (fun ⟨hen, hpos, hlt⟩ => hlast ⟨hen, hpos, hlt.le⟩), andThen_next, exec_clock hready,
      State.clockedAll_concat]

/-! ### The value a pass reloads the counter with -/

/-- A pass leaves the counter at 1 for an ACK bit, and at 8 for a byte (R184). -/
theorem PassEffect.cnt_eq (h : PassEffect s t) : t.cnt = if t.ap then 1 else 8 := by
  cases h <;> rfl

end BusRules

/-- Settles O30: the enabled CLOCK is `clocked`, whose counter and event have their equations. -/
theorem clockSamplesShiftsAndCounts : Obligations.ClockSamplesShiftsAndCounts := by
  intro b s h level
  obtain ⟨-, hovf⟩ := sclPull_eq_false.1 h.2
  rw [exec_clock h, State.clocked, s.cntAfterClock_eq, s.ovfAfterClock_eq, hovf, Bool.false_or]
  rfl

/-- Settles O31: up to the overflow the CLOCKs complete, and then the counter and the event are those of `clockedAll`; the
reload is read off each pass's effect. -/
theorem overflowComesAfterExactlyTheLoadedNumberOfClocks :
    Obligations.OverflowComesAfterExactlyTheLoadedNumberOfClocks := by
  refine ⟨fun s bs h hen hle hpos => ?_, fun s bs h hrest => ?_, fun i key s t hi h => ?_⟩
  · obtain ⟨-, hovf⟩ := sclPull_eq_false.1 h.2
    refine ⟨s.clockedAll bs, clocks_eq_clockedAll h (by omega), State.toNat_clockedAll_cnt hen bs, ?_⟩
    rw [State.clockedAll_ovfPend, hovf, Bool.false_or, decide_eq_decide]
    exact ⟨fun ⟨_, _, hge⟩ => hle.antisymm hge, fun heq => ⟨hen, hpos, heq.ge⟩⟩
  · obtain ⟨-, hovf⟩ := sclPull_eq_false.1 h.2
    have hcount := State.not_counting_of_resting hrest
    refine ⟨s.clockedAll bs, clocks_eq_clockedAll h (by tauto), State.clockedAll_cnt_of_resting hrest bs, ?_⟩
    rw [State.clockedAll_ovfPend, hovf, Bool.false_or, decide_eq_false (by tauto)]
  · exact (pass_effect ⟨key, hi⟩ h).cnt_eq

/-- Settles O32: fewer than 8 CLOCKs leave SCL free, and `sr[7]` after `k` of them is bit `7 - k` of the byte. -/
theorem loadedByteIsPresentedMostSignificantBitFirst : Obligations.LoadedByteIsPresentedMostSignificantBitFirst := by
  refine ⟨fun s => State.sdaPull_of_driving, fun s bs h hdrive hcnt hlen => ?_⟩
  have hcnt' : s.cnt.toNat = 8 := congrArg BitVec.toNat hcnt
  have hready : (s.clockedAll bs).ClockReady := State.clockReady_clockedAll h (by omega)
  refine ⟨s.clockedAll bs, clocks_eq_clockedAll h (by omega), hready, ?_⟩
  rw [State.sdaPull_of_driving ((State.clockedAll_sdaOe bs).trans hdrive),
    State.getLsbD_clockedAll_sr (Nat.le_of_lt_succ hlen) (by decide)]

/-- Settles O34: with both lines free the frame passes to the two writes. -/
theorem startConditionRaisesTheStartEvent : Obligations.StartConditionRaisesTheStartEvent := by
  rintro s ⟨hrst, hscl, hsda⟩
  show execStartCond s = _
  exact conditionFrame_eq_next.2 ⟨hrst, hscl, hsda, rfl⟩

/-- Settles O35: with both lines free the frame passes to the one write. -/
theorem stopConditionWritesOnlyTheFlag : Obligations.StopConditionWritesOnlyTheFlag := by
  rintro s ⟨hrst, hscl, hsda⟩
  show execStopCond s = _
  exact conditionFrame_eq_next.2 ⟨hrst, hscl, hsda, rfl⟩

end Sys2Proof.Machine

/-!
PROOFS. Reset (70_reset_and_hazards.md R230): the state right after reset, and that a block asleep, as reset leaves it, is
woken by no instruction but START_COND.
-/

namespace Sys2Proof.Machine

section ResetRules

variable {s t : State}

/-- Asleep: no bit is counted and no event is pending, which is what reset leaves and a START ends (R230). -/
abbrev State.Asleep (s : State) : Prop := s.cnt = 8 ∧ s.ovfEn = false ∧ s.sclPull = false

/-! ### The state right after reset -/

/-- Reset lists no byte, so the whole file reads as RF_INIT. -/
theorem State.rfByte_resetOf (p : Params) (cfg : BitVec 7) (ts : List Input) (i : Nat) :
    (State.resetOf p cfg ts).rfByte i = p.rfInit.getD i 0 := rfl

theorem State.idle_resetOf (p : Params) (cfg : BitVec 7) (ts : List Input) : (State.resetOf p cfg ts).Idle :=
  ⟨rfl, rfl, rfl, rfl, rfl⟩

theorem State.asleep_resetOf (p : Params) (cfg : BitVec 7) (ts : List Input) : (State.resetOf p cfg ts).Asleep :=
  ⟨rfl, rfl, rfl⟩

/-! ### What a block asleep does -/

/-- A pass is taken only while an event is pending (40_protocol_fsm.md R115, R116). -/
theorem PassEffect.pending (h : PassEffect s t) : s.sclPull = true := by
  cases h with
  | start hs => exact sclPull_iff.2 (.inl hs)
  | idle ho | ackAddress ho | pointer ho | endAck ho | store ho | storeNext ho | load ho | sent ho | loadNext ho =>
    exact sclPull_iff.2 (.inr ho)

/-- Asleep, no pass is taken. -/
theorem State.Asleep.no_pass (h : s.Asleep) : ¬ PassEffect s t := by
  intro hpass
  obtain ⟨-, -, hscl⟩ := h
  exact absurd hpass.pending (ne_true_of_eq_false hscl)

/-- A detached counter does not count, so a CLOCK raises no event (42_bus_and_bit_counter.md R184). -/
theorem State.Asleep.after_clock (h : s.Asleep) (hready : s.ClockReady) (b : Bool) : (s.clocked b).Asleep := by
  obtain ⟨hcnt, hen, -⟩ := h
  have hquiet : ¬ (s.ovfEn = true ∧ 0 < s.cnt.toNat ∧ s.cnt.toNat ≤ [b].length) :=
    fun hcount => ne_true_of_eq_false hen hcount.1
  obtain ⟨-, hscl⟩ := clockReady_clockedAll hready hquiet
  exact ⟨(clockedAll_cnt_of_resting (.inl hen) [b]).trans hcnt, hen, hscl⟩

/-- Asleep, the bits of a wire byte are CLOCKs that call for no pass. -/
theorem State.Asleep.after_sendBits {bs : List Bool} (h : s.Asleep) (ht : sendBits bs s = .next t) : t.Asleep :=
  sendBits_keeps (P := State.Asleep) (fun _ b hs hready => hs.after_clock hready b)
    (fun _ _ hs _ _ hpass => absurd hpass hs.no_pass) h ht

/-- An application operation writes neither the counter nor an event. -/
theorem State.Asleep.after_app {i : Instr} {cmd : BitVec 4} {idx : Byte} {w : Word} (h : s.Asleep)
    (hi : encode i = .command cmd idx w) (ht : exec i s = .next t) : t.Asleep := by
  obtain ⟨-, hframe, -⟩ := app_effect hi ht
  rw [hframe]
  exact h

/-- A block asleep stays asleep in every instruction but START_COND. -/
theorem State.Asleep.after_exec {i : Instr} (h : s.Asleep) (hi : i ≠ .startCond) (ht : exec i s = .next t) : t.Asleep := by
  cases i with
  | startCond => exact absurd rfl hi
  | stopCond =>
    obtain ⟨-, -, -, hwrite⟩ := conditionFrame_eq_next.1 ht
    cases hwrite
    exact h
  | clock b =>
    obtain ⟨hrst, hscl, hwrite⟩ := busFrame_eq_next.1 ht
    cases hwrite
    exact h.after_clock ⟨hrst, hscl⟩ b
  | addrW | addrR => exact h.after_sendBits ht
  | getU8 | getU16 | getU32 | getS8 | getS16 | getS32 | setU8 | setU16 | setU32 | setS8 | setS16 | setS32
  | reservedWidth => exact h.after_app rfl ht
  | _ => exact absurd (pass_effect ⟨_, rfl⟩ ht) h.no_pass

end ResetRules

/-- Settles O1: the values stand in `State.resetOf`, and the state is asleep, which only START_COND ends. -/
theorem resetLeavesTheStatedValuesAndOnlyAStartWakesTheBlock :
    Obligations.ResetLeavesTheStatedValuesAndOnlyAStartWakesTheBlock := by
  intro p cfg ts s
  exact ⟨rfl, rfl, rfl, fun i _ => State.rfByte_resetOf p cfg ts i, rfl, rfl, rfl, rfl, rfl, rfl, rfl, rfl,
    State.idle_resetOf p cfg ts, rfl, rfl, fun i t ht hi => (State.asleep_resetOf p cfg ts).after_exec hi ht⟩

end Sys2Proof.Machine

/-!
PROOFS. The encoding (30_encoding.md): the encoder and the decoder are inverse to each other, space by space.
-/

namespace Sys2Proof

section EncodingRules

/-! ### Dispatch keys -/

/-- The row of a reserved state code is the reserved one (R87). -/
theorem decodeOvf_of_reservedCode {st : BitVec 3} (h : reservedCode st = true) (ap : Bool) :
    decodeOvf st ap = .ovfReservedState st ap := by
  revert st ap; decide

/-- The row of a pair stands in the dispatch table under the pair's key (R86, R87). -/
theorem encode_decodeOvf (st : BitVec 3) (ap : Bool) : encode (decodeOvf st ap) = .event (ovfKey st ap) := by
  revert st ap; decide

theorem wf_decodeOvf (st : BitVec 3) (ap : Bool) : (decodeOvf st ap).wf = true := by
  revert st ap; decide

/-- A key is a START key, an OVF key, or one with `ev` 00 or 11 (R86). -/
theorem key_cases (key : BitVec 6) :
    (∃ st ap, key = startKey st ap) ∨ (∃ st ap, key = ovfKey st ap) ∨ key.getLsbD 5 = key.getLsbD 4 := by
  revert key; decide

/-- The keys with `ev` 00 and 11 are rejected (R86). -/
theorem decodeEvent_of_ev {key : BitVec 6} (h : key.getLsbD 5 = key.getLsbD 4) : (decodeEvent key).isOk = false := by
  revert key; decide

/-! ### Application commands -/

/-- A command is its `dir`, `sgn` and `wcode` bits in this order (R88). -/
theorem command_fields (cmd : BitVec 4) :
    cmd = BitVec.ofBool (cmd.getLsbD 3) ++ BitVec.ofBool (cmd.getLsbD 2) ++ cmd.extractLsb' 0 2 := by
  revert cmd; decide

theorem bitVec2_cases (c : BitVec 2) : c = 0b00 ∨ c = 0b01 ∨ c = 0b10 ∨ c = 0b11 := by
  revert c; decide

/-- The encoder takes a decoded command back to its word, but for the `wdata` of a GET (R89, R91, log 16). -/
theorem encode_decodeCommand (cmd : BitVec 4) (idx : Byte) (w : Word) :
    (decodeCommand cmd idx w).wf = true ∧
      (encode (decodeCommand cmd idx w) = .command cmd idx w ∨
        cmd.getLsbD 3 = false ∧ encode (decodeCommand cmd idx w) = .command cmd idx 0) := by
  rw [command_fields cmd]
  cases cmd.getLsbD 3 with
  | false =>
    rcases bitVec2_cases (cmd.extractLsb' 0 2) with h | h | h | h <;> rw [h] <;> cases cmd.getLsbD 2
    case inr.inr.inr.false | inr.inr.inr.true => exact ⟨rfl, .inl rfl⟩
    all_goals exact ⟨rfl, .inr ⟨rfl, rfl⟩⟩
  | true =>
    rcases bitVec2_cases (cmd.extractLsb' 0 2) with h | h | h | h <;> rw [h] <;> cases cmd.getLsbD 2 <;>
      exact ⟨rfl, .inl rfl⟩

/-! ### Bus actions and wire bytes -/

/-- The encoder takes a decoded action back to its code (R85). -/
theorem encode_decodeAction (c : BitVec 2) : (decodeAction c).wf = true ∧ encode (decodeAction c) = .action c := by
  revert c; decide

/-- An address byte is split where it was joined (R80). -/
theorem extractLsb'_addressByte (a : BitVec 7) (rw : BitVec 1) : (a ++ rw).extractLsb' 1 7 = a :=
  BitVec.extractLsb'_append_eq_left

theorem getLsbD_addressByte (a : BitVec 7) (rw : Bool) : (a ++ BitVec.ofBool rw : Byte).getLsbD 0 = rw := by
  rw [BitVec.getLsbD_append]
  cases rw <;> rfl

theorem decodeWire_write (a : BitVec 7) : decodeWire (a ++ 0b0#1) = .addrW a := by
  have hrw : (a ++ 0b0#1 : Byte).getLsbD 0 = false := getLsbD_addressByte a false
  rw [decodeWire, hrw, extractLsb'_addressByte]

theorem decodeWire_read (a : BitVec 7) : decodeWire (a ++ 0b1#1) = .addrR a := by
  have hrw : (a ++ 0b1#1 : Byte).getLsbD 0 = true := getLsbD_addressByte a true
  rw [decodeWire, hrw, extractLsb'_addressByte]

/-- Every wire byte is an address with its R/W bit (R80). -/
theorem wire_cases (x : Byte) : ∃ a : BitVec 7, x = a ++ 0b0#1 ∨ x = a ++ 0b1#1 := by
  refine ⟨x.extractLsb' 1 7, ?_⟩
  revert x; decide

/-- The encoder takes a decoded wire byte back to the byte. -/
theorem encode_decodeWire (x : Byte) : (decodeWire x).wf = true ∧ encode (decodeWire x) = .wire x := by
  obtain ⟨a, rfl | rfl⟩ := wire_cases x
  · rw [decodeWire_write]; exact ⟨rfl, rfl⟩
  · rw [decodeWire_read]; exact ⟨rfl, rfl⟩

end EncodingRules

/-- Settles O41: by the instruction; the keys with operands by their two forms, a command by its literal bits, and a wire
byte by splitting it where it was joined. -/
theorem decodeOfEncodeIsTheInstruction : Obligations.DecodeOfEncodeIsTheInstruction := by
  intro i hwf
  cases i with
  | start st ap => exact Machine.decode_startKey st ap
  | ovfReservedState st ap =>
    show decodeEvent (ovfKey st ap) = _
    rw [Machine.decode_ovfKey, decodeOvf_of_reservedCode hwf]
  | reservedWidth dir sgn => cases dir <;> cases sgn <;> rfl
  | clock b => cases b <;> rfl
  | addrW a => exact congrArg Except.ok (decodeWire_write a)
  | addrR a => exact congrArg Except.ok (decodeWire_read a)
  | _ => rfl

/-- Settles O42: by the space of the encoded step; a key by its three forms. -/
theorem encodeOfDecodeIsTheWord : Obligations.EncodeOfDecodeIsTheWord := by
  constructor
  · intro e i h
    cases e with
    | event key =>
      rcases key_cases key with ⟨st, ap, rfl⟩ | ⟨st, ap, rfl⟩ | hev
      · cases (Machine.decode_startKey st ap).symm.trans h
        exact ⟨rfl, .inl rfl⟩
      · cases (Machine.decode_ovfKey st ap).symm.trans h
        exact ⟨wf_decodeOvf st ap, .inl (encode_decodeOvf st ap)⟩
      · have hrejected := decodeEvent_of_ev hev
        rw [show decodeEvent key = .ok i from h] at hrejected
        cases hrejected
    | command cmd idx w =>
      cases h
      obtain ⟨hwf, henc | ⟨hget, henc⟩⟩ := encode_decodeCommand cmd idx w
      · exact ⟨hwf, .inl henc⟩
      · exact ⟨hwf, .inr ⟨cmd, idx, w, rfl, hget, henc⟩⟩
    | action c =>
      cases h
      exact (encode_decodeAction c).imp_right .inl
    | wire x =>
      cases h
      exact (encode_decodeWire x).imp_right .inl
  · intro e why h
    cases e with
    | event key =>
      rcases key_cases key with ⟨st, ap, rfl⟩ | ⟨st, ap, rfl⟩ | hev
      · cases (Machine.decode_startKey st ap).symm.trans h
      · cases (Machine.decode_ovfKey st ap).symm.trans h
      · exact ⟨key, rfl, hev⟩
    | _ => cases h

/-- Settles O40: the rows with free key bits by going through their keys, the address bytes by splitting them, and the rows
of literal words by running the decoder. -/
theorem wordsOfTheEncodingTablesDecode : Obligations.WordsOfTheEncodingTablesDecode :=
  ⟨by decide, rfl, rfl, rfl, rfl, rfl, rfl, rfl, rfl, rfl, rfl, rfl, rfl, by decide, by decide, by decide,
    fun _ _ => ⟨rfl, rfl, rfl, rfl, rfl, rfl, rfl, rfl, rfl, rfl, rfl, rfl, rfl, rfl, rfl, rfl⟩, rfl, rfl, rfl, rfl,
    fun a => ⟨congrArg Except.ok (decodeWire_write a), congrArg Except.ok (decodeWire_read a)⟩⟩

end Sys2Proof

/-!
PROOFS. What an instruction can do, agent by agent: when a pass is taken, which refusal answers where no step exists (log 3),
and which elements each instruction leaves alone (10_state.md sections 1 to 4).
-/

namespace Sys2Proof.Machine

section AgentRules

variable {s t : State} {k : Result} {i : Instr} {st : BitVec 3} {ap : Bool} {f : State → Result}

/-! ### Refusals -/

/-- Every frame answers so while `rst` is asserted (70_reset_and_hazards.md R231). -/
theorem running_inReset (h : s.rst = true) : running s k = .refused .inReset := if_pos h

/-- While an event is pending no bus action is taken (42_bus_and_bit_counter.md R185). -/
theorem busFrame_held (hrst : s.rst = false) (h : s.sclPull = true) : busFrame s k = .refused .sclHeld := by
  rw [busFrame, running_of hrst, if_pos h]

/-- With SCL free, START and STOP wait for SDA (42_bus_and_bit_counter.md R188). -/
theorem conditionFrame_held (h : s.ClockReady) (hsda : s.sdaPull = true) : conditionFrame s k = .refused .sdaHeld := by
  obtain ⟨hrst, hscl⟩ := h
  rw [conditionFrame, busFrame, running_of hrst, if_neg (ne_true_of_eq_false hscl), if_pos hsda]

/-- A START pass with no START pending (40_protocol_fsm.md R116). -/
theorem startFrame_refused (hrst : s.rst = false) (h : s.startPend = false) :
    startFrame s f = .refused .passNotEnabled := by
  rw [startFrame, running_of hrst, if_neg (ne_true_of_eq_false h)]

/-- An OVF pass that is not the selected one (40_protocol_fsm.md R115). -/
theorem ovfFrame_refused (hrst : s.rst = false) (h : ¬ s.PassReady st ap) :
    ovfFrame st ap s f = .refused .passNotEnabled := by
  have hsel : ¬ s.ovfSelected st ap = true := fun hsel => h <| by
    obtain ⟨hovf, hstart, hst, hap⟩ := ovfSelected_iff.1 hsel
    exact ⟨hrst, hstart, hovf, hst, hap⟩
  rw [ovfFrame, running_of hrst, if_neg hsel]

/-- An enabled OVF pass whose body stops on a fault stops on it. -/
theorem ovfFrame_fault {r : Fault} (h : s.PassReady st ap) (hf : f s = .fault r) : ovfFrame st ap s f = .fault r := by
  obtain ⟨hrst, hstart, hovf, hst, hap⟩ := h
  rw [ovfFrame_of hrst hstart hovf hst hap, hf, andThen_fault]

/-- A wire byte begins with a CLOCK, so it is refused as that is. -/
theorem sendBits_refused {b : Bool} {bs : List Bool} {r : Refusal} (h : exec (.clock b) s = .refused r) :
    sendBits (b :: bs) s = .refused r := by
  show andThen (andThen (exec (.clock b) s) settle) _ = _
  rw [h]
  rfl

theorem State.PassReady.sclPull (h : s.PassReady st ap) : s.sclPull = true :=
  sclPull_iff.2 (.inr h.2.2.1)

/-- An enabled OVF pass is the one the engine takes (60_exceptions.md R204). -/
theorem State.PassReady.pass_eq (h : s.PassReady st ap) : s.pass = decodeOvf st ap := by
  obtain ⟨-, hstart, -, hst, hap⟩ := h
  rw [State.pass, if_neg (ne_true_of_eq_false hstart), hst, hap]

/-- A block that does not drive SDA does not pull it (10_state.md R32). -/
theorem State.sdaPull_of_not_driving (h : s.sdaOe = false) : s.sdaPull = false := by
  rw [State.sdaPull, h, Bool.false_and]

/-! ### The effect of an instruction, whichever agent's it is -/

/-- The engine's instructions are the START pass and the OVF passes, each its body in the frame of its key. -/
theorem isPass.cases (hi : isPass i) :
    (∃ st ap, i = .start st ap) ∨ ∃ st ap f, ∀ s, exec i s = ovfFrame st ap s f := by
  obtain ⟨key, hkey⟩ := hi
  cases i with
  | start st ap => exact .inl ⟨st, ap, rfl⟩
  | ovfAwaitAddressByte | ovfAwaitAddressAck | ovfAwaitRegisterPointerByte | ovfAwaitRegisterPointerAck
  | ovfWriteDataByte | ovfWriteDataAck | ovfPostWriteAckByte | ovfPostWriteAckAck | ovfReadDataPreAck
  | ovfReadDataPreByte | ovfReadAckPollByte | ovfReadAckPollAck | ovfReservedState =>
    exact .inr ⟨_, _, _, fun _ => rfl⟩
  | _ => cases hkey

/-- An OVF pass that answers a next state found its event pending and no START; it answers what its body writes, and
clears the event (R115). -/
theorem ovfPass_writes (hexec : ∀ s, exec i s = ovfFrame st ap s f) (h : exec i s = .next t) :
    s.startPend = false ∧ ∃ u, f s = .next u ∧ t = { u with ovfPend := false } := by
  obtain ⟨-, -, hstart, -, -, hbody⟩ := ovfFrame_eq_next.1 ((hexec s).symm.trans h)
  exact ⟨hstart, hbody⟩

/-- A wire byte that completes found SCL free for its first bit. -/
theorem clockReady_of_sendBits {b : Bool} {bs : List Bool} (h : sendBits (b :: bs) s = .next t) : s.ClockReady := by
  obtain ⟨u, hu, -⟩ := sendBits_cons_eq_next.1 h
  obtain ⟨hrst, hscl, -⟩ := clockAndSettle_eq_next.1 hu
  exact ⟨hrst, hscl⟩

/-- What an instruction that answers a next state did, by the port it stands on. -/
inductive ExecEffect (i : Instr) (s : State) : State → Prop where
  | pass {t : State} (hi : isPass i) (h : PassEffect s t) : ExecEffect i s t
  | app {t : State} {cmd : BitVec 4} {idx : Byte} {w : Word} (hi : encode i = .command cmd idx w)
      (hframe : t = { s with rf := t.rf, rdata := t.rdata, err := t.err })
      (hwf : Memory.wf s.params s.rf = true → Memory.wf s.params t.rf = true) : ExecEffect i s t
  | clock (b : Bool) (hi : i = .clock b) (h : s.ClockReady) : ExecEffect i s (s.clocked b)
  | startCond (hi : i = .startCond) (h : s.ConditionReady) :
      ExecEffect i s { s with startPend := true, stopFlag := false }
  | stopCond (hi : i = .stopCond) (h : s.ConditionReady) : ExecEffect i s { s with stopFlag := true }
  | wire {t : State} {x : Byte} {bs : List Bool} (hi : encode i = .wire x) (hready : s.ClockReady)
      (h : sendBits bs s = .next t) : ExecEffect i s t

theorem exec_effect (h : exec i s = .next t) : ExecEffect i s t := by
  cases i with
  | clock b =>
    obtain ⟨hrst, hscl, hwrite⟩ := busFrame_eq_next.1 h
    cases hwrite
    exact .clock b rfl ⟨hrst, hscl⟩
  | startCond =>
    obtain ⟨hrst, hscl, hsda, hwrite⟩ := conditionFrame_eq_next.1 h
    cases hwrite
    exact .startCond rfl ⟨hrst, hscl, hsda⟩
  | stopCond =>
    obtain ⟨hrst, hscl, hsda, hwrite⟩ := conditionFrame_eq_next.1 h
    cases hwrite
    exact .stopCond rfl ⟨hrst, hscl, hsda⟩
  | addrW | addrR => exact .wire rfl (clockReady_of_sendBits h) h
  | getU8 | getU16 | getU32 | getS8 | getS16 | getS32 | setU8 | setU16 | setU32 | setS8 | setS16 | setS32
  | reservedWidth =>
    obtain ⟨-, hframe, hwf⟩ := app_effect rfl h
    exact .app rfl hframe hwf
  | _ => exact .pass ⟨_, rfl⟩ (pass_effect ⟨_, rfl⟩ h)

/-! ### What is left alone -/

/-- A pass writes neither what the other agents answer and drive, nor the parameters, the input lines and the turns. -/
theorem PassEffect.frame (h : PassEffect s t) :
    t = { s with st := t.st, ptr := t.ptr, ap := t.ap, rf := t.rf, sr := t.sr, cnt := t.cnt, ovfEn := t.ovfEn,
                 sdaOe := t.sdaOe, startPend := t.startPend, ovfPend := t.ovfPend } := by
  cases h <;> rfl

/-- No pass raises an event. -/
theorem PassEffect.startPend (h : PassEffect s t) : t.startPend = false := (sclPull_eq_false.1 h.sclPull).1

/-- Only the pointer byte and the two increments write the pointer, and only the two storing passes write the file (10_state.md
R21, R23). -/
theorem pass_writes (hi : isPass i) (h : exec i s = .next t) :
    (t.ptr = s.ptr ∨ i = .ovfAwaitRegisterPointerByte ∧ t.ptr = wrapPtr s.n s.sr.toNat ∨
      (i = .ovfPostWriteAckByte ∨ i = .ovfReadAckPollAck) ∧ t.ptr = s.incPtr) ∧
    (t.rf = s.rf ∨ i = .ovfWriteDataByte ∨ i = .ovfPostWriteAckByte) := by
  obtain ⟨key, hkey⟩ := hi
  cases i with
  | start st ap =>
    change execStart st ap s = _ at h
    obtain ⟨-, -, hwrite⟩ := startFrame_eq_next.1 h
    cases hwrite
    exact ⟨.inl rfl, .inl rfl⟩
  | ovfAwaitAddressAck | ovfAwaitRegisterPointerAck | ovfWriteDataAck | ovfPostWriteAckAck | ovfReadDataPreByte
  | ovfReadAckPollByte =>
    obtain ⟨-, u, hu, rfl⟩ := ovfPass_writes (fun _ => rfl) h
    cases hu
    exact ⟨.inl rfl, .inl rfl⟩
  | ovfAwaitAddressByte | ovfReservedState =>
    obtain ⟨-, u, hu, rfl⟩ := ovfPass_writes (fun _ => rfl) h
    split at hu <;> cases hu <;> exact ⟨.inl rfl, .inl rfl⟩
  | ovfAwaitRegisterPointerByte =>
    obtain ⟨-, u, hu, rfl⟩ := ovfPass_writes (fun _ => rfl) h
    cases hu
    exact ⟨.inr (.inl ⟨rfl, rfl⟩), .inl rfl⟩
  | ovfWriteDataByte =>
    obtain ⟨-, u, hu, rfl⟩ := ovfPass_writes (fun _ => rfl) h
    obtain ⟨-, hwrite⟩ := rawWrite_eq_next.1 hu
    cases hwrite
    exact ⟨.inl rfl, .inr (.inl rfl)⟩
  | ovfReadDataPreAck =>
    obtain ⟨-, u, hu, rfl⟩ := ovfPass_writes (fun _ => rfl) h
    obtain ⟨-, hwrite⟩ := rawRead_eq_next.1 hu
    cases hwrite
    exact ⟨.inl rfl, .inl rfl⟩
  | ovfPostWriteAckByte =>
    obtain ⟨-, u, hu, rfl⟩ := ovfPass_writes (fun _ => rfl) h
    split at hu
    · cases hu
      exact ⟨.inl rfl, .inl rfl⟩
    · obtain ⟨-, hwrite⟩ := rawWrite_eq_next.1 hu
      cases hwrite
      exact ⟨.inr (.inr ⟨.inl rfl, rfl⟩), .inr (.inr rfl)⟩
  | ovfReadAckPollAck =>
    obtain ⟨-, u, hu, rfl⟩ := ovfPass_writes (fun _ => rfl) h
    split at hu
    · cases hu
      exact ⟨.inl rfl, .inl rfl⟩
    · obtain ⟨-, hwrite⟩ := rawRead_eq_next.1 hu
      cases hwrite
      exact ⟨.inr (.inr ⟨.inr rfl, rfl⟩), .inl rfl⟩
  | _ => cases hkey

/-- A GET writes no byte: its command has `dir = 0` (30_encoding.md R89). -/
theorem get_keeps_rf {cmd : BitVec 4} {idx : Byte} {w : Word} (hi : encode i = .command cmd idx w)
    (hdir : cmd.getLsbD 3 = false) (h : exec i s = .next t) : t.rf = s.rf := by
  cases i with
  | getU8 | getU16 | getU32 | getS8 | getS16 | getS32 =>
    obtain ⟨-, rfl⟩ := appFrame_eq_next.1 h
    split <;> rfl
  | setU8 | setU16 | setU32 | setS8 | setS16 | setS32 =>
    cases hi
    cases hdir
  | reservedWidth =>
    obtain ⟨-, hwrite⟩ := running_eq_next.1 h
    cases hwrite
    rfl
  | _ => cases hi

/-- The elements no CLOCK and no pass writes, and the START event, which neither raises. -/
structure State.ProtocolFrame (s t : State) : Prop where
  params : t.params = s.params
  sa : t.sa = s.sa
  rst : t.rst = s.rst
  cfgAddr : t.cfgAddr = s.cfgAddr
  inputs : t.inputs = s.inputs
  stopFlag : t.stopFlag = s.stopFlag
  rdata : t.rdata = s.rdata
  err : t.err = s.err
  startPend : t.startPend = true → s.startPend = true

theorem State.ProtocolFrame.refl (s : State) : s.ProtocolFrame s := ⟨rfl, rfl, rfl, rfl, rfl, rfl, rfl, rfl, id⟩

theorem State.ProtocolFrame.clocked {u : State} (h : s.ProtocolFrame u) (b : Bool) : s.ProtocolFrame (u.clocked b) := by
  cases h; constructor <;> assumption

theorem PassEffect.protocolFrame {u : State} (hs : s.ProtocolFrame u) (h : PassEffect u t) : s.ProtocolFrame t := by
  obtain ⟨hparams, hsa, hrst, hcfg, hinputs, hstop, hrdata, herr, -⟩ := hs
  have hstart := h.startPend
  rw [h.frame]
  exact ⟨hparams, hsa, hrst, hcfg, hinputs, hstop, hrdata, herr, fun hs => absurd hs (ne_true_of_eq_false hstart)⟩

theorem sendBits_protocolFrame {bs : List Bool} (h : sendBits bs s = .next t) : s.ProtocolFrame t :=
  sendBits_keeps (P := s.ProtocolFrame) (fun _ b hu _ => hu.clocked b) (fun _ _ hu _ _ hpass => hpass.protocolFrame hu)
    (.refl s) h

/-- A detached block stays idle and keeps its pointer through the bits of a wire byte (42_bus_and_bit_counter.md R189). -/
theorem sendBits_detached {bs : List Bool} (hasleep : s.Asleep) (hidle : s.Idle) (h : sendBits bs s = .next t) :
    t.Idle ∧ t.Asleep ∧ t.ptr = s.ptr := by
  refine sendBits_keeps (P := fun u => u.Idle ∧ u.Asleep ∧ u.ptr = s.ptr) ?_ ?_ ⟨hidle, hasleep, rfl⟩ h
  · rintro u b ⟨⟨hst, hap, hen, hoe, -⟩, hu, hptr⟩ hready
    have hafter := hu.after_clock hready b
    exact ⟨⟨hst, hap, hen, hoe, hafter.1⟩, hafter, hptr⟩
  · rintro u v ⟨-, hu, -⟩ - - hpass
    exact absurd hpass hu.no_pass

end AgentRules

/-- Settles O14: a START pass by its frame, an OVF row by the frame of its key, in which the body completes below N. -/
theorem passesRunExactlyWhenTheyAreSelected : Obligations.PassesRunExactlyWhenTheyAreSelected := by
  intro st ap s hrst
  have hstart : exec (.start st ap) s = execStart st ap s := rfl
  obtain ⟨f, hexec, hbody⟩ := exec_decodeOvf st ap s
  rw [hstart]
  refine ⟨⟨fun ⟨t, ht⟩ => (startFrame_eq_next.1 ht).2.1, fun h => ⟨_, startFrame_eq_next.2 ⟨hrst, h, rfl⟩⟩⟩,
    startFrame_refused hrst, fun hready hptr => ?_, fun hnot => hexec.trans (ovfFrame_refused hrst hnot)⟩
  obtain ⟨t, ht⟩ := hbody hptr
  have hpass := hexec.trans (ovfFrame_completes hready ht)
  exact ⟨_, hpass, rfl, (pass_effect ⟨_, encode_decodeOvf st ap⟩ hpass).sclPull⟩

/-- Settles O15: the body of either pass is the raw port, which has no such byte. -/
theorem rawBytePortStopsOutsideTheFile : Obligations.RawBytePortStopsOutsideTheFile := by
  intro s h
  constructor <;> intro hready
  · show execOvfWriteDataByte s = _
    exact ovfFrame_fault hready (if_neg h.not_gt)
  · show execOvfReadDataPreAck s = _
    exact ovfFrame_fault hready (if_neg h.not_gt)

/-- Settles O36: both rows stand in the frame that needs SDA. -/
theorem noStartOrStopWhileTheBlockPullsSda : Obligations.NoStartOrStopWhileTheBlockPullsSda :=
  fun _ h hsda => ⟨conditionFrame_held h hsda, conditionFrame_held h hsda⟩

/-- Settles O19: a START pending shuts every OVF pass out, and no step of another agent clears a flag. -/
theorem pendingEventsWaitForTheirPass : Obligations.PendingEventsWaitForTheirPass := by
  intro i s t h
  cases exec_effect h with
  | pass hi =>
    refine ⟨fun hstart => ?_, fun _ => .inl hi⟩
    rcases hi.cases with hi | ⟨st, ap, f, hexec⟩
    · exact .inl hi
    · obtain ⟨hnot, -⟩ := ovfPass_writes hexec h
      exact absurd hstart (ne_true_of_eq_false hnot)
  | app hi hframe =>
    rw [hframe]
    exact ⟨.inr, .inr⟩
  | startCond => exact ⟨fun _ => .inr rfl, .inr⟩
  | stopCond => exact ⟨.inr, .inr⟩
  | clock _ _ hready | wire _ hready =>
    obtain ⟨-, hscl⟩ := hready
    obtain ⟨hstart, hovf⟩ := sclPull_eq_false.1 hscl
    exact ⟨fun hs => absurd hs (ne_true_of_eq_false hstart), fun ho => absurd ho (ne_true_of_eq_false hovf)⟩

/-- Settles O48: the passes by `pass_writes`, whose two values are those of the rules; no other agent writes the pointer. -/
theorem onlyPointerByteAndIncrementsWriteThePointer : Obligations.OnlyPointerByteAndIncrementsWriteThePointer := by
  intro i s t h hwire
  cases exec_effect h with
  | pass hi =>
    obtain ⟨hptr | ⟨hi, hptr⟩ | ⟨hi, hptr⟩, -⟩ := pass_writes hi h
    · exact .inl hptr
    · exact .inr (.inl ⟨hi, hptr ▸ s.toNat_wrapPtr _⟩)
    · exact .inr (.inr ⟨hi, hptr ▸ s.toNat_incPtr⟩)
  | app hi hframe =>
    rw [hframe]
    exact .inl rfl
  | clock | startCond | stopCond => exact .inl rfl
  | wire hi => exact absurd hi (hwire _)

/-- Settles O49: by the agent; of the passes, `pass_writes` names those that store. -/
theorem eachElementIsWrittenOnlyByItsSteps : Obligations.EachElementIsWrittenOnlyByItsSteps := by
  intro i s t h
  cases exec_effect h with
  | pass hi hpass =>
    obtain ⟨-, hrf⟩ := pass_writes hi h
    obtain ⟨hparams, hsa, hrst, hcfg, hinputs, hstop, hrdata, herr, hstart⟩ := hpass.protocolFrame (.refl s)
    exact ⟨hparams, hsa, hrst, hcfg, hinputs, .inl hstop, fun hs => .inl (hstart hs), .inl ⟨hrdata, herr⟩,
      .inl (by rw [hpass.frame]), hrf.imp_right (Or.imp_right .inl)⟩
  | @app _ cmd _ _ hi hframe =>
    have hrf : t.rf = s.rf ∨ cmd.getLsbD 3 = true := by
      cases hdir : cmd.getLsbD 3 with
      | false => exact .inl (get_keeps_rf hi hdir h)
      | true => exact .inr rfl
    have hrf' : t.rf = s.rf ∨ i = .ovfWriteDataByte ∨ i = .ovfPostWriteAckByte ∨
        (∃ cmd idx w, encode i = .command cmd idx w ∧ cmd.getLsbD 3 = true) ∨ ∃ x, encode i = .wire x :=
      hrf.imp_right fun hdir => .inr (.inr (.inl ⟨_, _, _, hi, hdir⟩))
    rw [hframe]
    exact ⟨rfl, rfl, rfl, rfl, rfl, .inl rfl, .inl, .inr ⟨_, _, _, hi⟩, .inl rfl, hrf'⟩
  | clock b hi => exact ⟨rfl, rfl, rfl, rfl, rfl, .inl rfl, .inl, .inl ⟨rfl, rfl⟩, .inr (.inl ⟨b, hi⟩), .inl rfl⟩
  | startCond hi =>
    exact ⟨rfl, rfl, rfl, rfl, rfl, .inr (.inl hi), fun _ => .inr hi, .inl ⟨rfl, rfl⟩, .inl rfl, .inl rfl⟩
  | stopCond hi => exact ⟨rfl, rfl, rfl, rfl, rfl, .inr (.inr hi), .inl, .inl ⟨rfl, rfl⟩, .inl rfl, .inl rfl⟩
  | wire hi _ hsend =>
    obtain ⟨hparams, hsa, hrst, hcfg, hinputs, hstop, hrdata, herr, hstart⟩ := sendBits_protocolFrame hsend
    exact ⟨hparams, hsa, hrst, hcfg, hinputs, .inl hstop, fun hs => .inl (hstart hs), .inl ⟨hrdata, herr⟩,
      .inr (.inr ⟨_, hi⟩), .inr (.inr (.inr (.inr ⟨_, hi⟩)))⟩

/-- Settles O37: detached, the invariants make the block idle with nothing pending, and no pass is taken from there. -/
theorem detachedBlockStaysPassiveUntilAStart : Obligations.DetachedBlockStaysPassiveUntilAStart := by
  intro s hinv hdetached hstart
  have hidle := hinv.detached_idle hdetached
  have ⟨hst, hap, _, hoe, hcnt⟩ := hidle
  have hovf : s.ovfPend = false := Bool.eq_false_iff.2 fun hovf => ne_true_of_eq_false hdetached (hinv.ovf_cnt hovf).2
  have hscl : s.sclPull = false := sclPull_eq_false.2 ⟨hstart, hovf⟩
  have hasleep : s.Asleep := ⟨hcnt, hdetached, hscl⟩
  refine ⟨State.sdaPull_of_not_driving hoe, hscl, fun i t h hi => ?_⟩
  have hafter : t.Asleep := hasleep.after_exec hi h
  have ⟨hcnt', _, hscl'⟩ := hafter
  suffices hkeep : t.Idle ∧ t.ptr = s.ptr by
    obtain ⟨⟨hst', hap', hen', hoe', _⟩, hptr⟩ := hkeep
    exact ⟨⟨hst', hap', hen', hoe', hcnt'⟩, State.sdaPull_of_not_driving hoe', hscl', hptr⟩
  cases exec_effect h with
  | pass _ hpass => exact absurd hpass hasleep.no_pass
  | app _ hframe =>
    rw [hframe]
    exact ⟨hidle, rfl⟩
  | clock =>
    exact ⟨⟨hst, hap, hdetached, hoe, hcnt'⟩, rfl⟩
  | startCond hi' => exact absurd hi' hi
  | stopCond => exact ⟨hidle, rfl⟩
  | wire _ _ hsend =>
    obtain ⟨hidle', -, hptr⟩ := sendBits_detached hasleep hidle hsend
    exact ⟨hidle', hptr⟩

end Sys2Proof.Machine

/-!
PROOFS. The step, turn by turn (20_memory.md R60, log 1), and the invariants of 10_state.md R36: every step keeps them, and
where they hold every turn an agent can take completes.
-/

namespace Sys2Proof.Machine

section StepRules

variable {s t : State} {rest : List Input}

/-! ### The step each turn gives -/

/-- The key the engine forms decodes to the pass it takes (60_exceptions.md R204, R205). -/
theorem decode_key_eq_pass (s : State) : decode (.event s.key) = .ok s.pass := decode_key s

theorem engineReady_iff : s.engineReady = true ↔ s.sclPull = true ∧ s.rst = false := by
  rw [State.engineReady, Bool.and_eq_true, Bool.not_eq_true']

/-- With no turn listed, or one of the bus master's, a ready engine comes first and the list is kept (log 2). -/
theorem step_pass_first (h : s.engineReady = true)
    (hi : s.inputs = [] ∨ (∃ c, s.inputs = .bus c :: rest) ∨ ∃ x, s.inputs = .wire x :: rest) : step s = exec s.pass s := by
  have hfetch : fetch s = .code (.event s.key) s := by
    rcases hi with hi | ⟨c, hi⟩ | ⟨x, hi⟩ <;> rw [fetch, hi]
    · exact if_pos h
    · exact if_pos h
    · exact if_pos h
  exact step_engine hfetch

theorem step_engine_ready (hi : s.inputs = .engine :: rest) (h : s.engineReady = true) :
    step s = exec s.pass { s with inputs := rest } := by
  have hfetch : fetch s = .code (.event s.key) { s with inputs := rest } := by
    rw [fetch, hi]
    exact if_pos h
  exact step_engine hfetch

theorem step_engine_waits (hi : s.inputs = .engine :: rest) (h : s.engineReady = false) :
    step s = .next { s with inputs := rest } := by
  simp [step, fetch, hi, h]

theorem step_nil_waits (hi : s.inputs = []) (h : s.engineReady = false) : step s = .next s := by
  simp [step, fetch, hi, h]

theorem step_bus_turn {c : BitVec 2} (hi : s.inputs = .bus c :: rest) (h : s.engineReady = false) :
    step s = exec (decodeAction c) { s with inputs := rest } := by
  simp [step, fetch, hi, busTurn, h, decode]

theorem step_wire_turn {x : Byte} (hi : s.inputs = .wire x :: rest) (h : s.engineReady = false) :
    step s = exec (decodeWire x) { s with inputs := rest } := by
  simp [step, fetch, hi, busTurn, h, decode]

theorem step_rst {level : Bool} (hi : s.inputs = .rst level :: rest) :
    step s = .next ({ s with inputs := rest }.driveRst level) := by
  simp [step, fetch, hi]

theorem step_cfg {a : BitVec 7} (hi : s.inputs = .cfg a :: rest) :
    step s = .next { s with inputs := rest, cfgAddr := a } := by
  simp [step, fetch, hi]

/-- The release of an asserted `rst` leaves the reset state (70_reset_and_hazards.md R231). -/
theorem driveRst_release (h : s.rst = true) : s.driveRst false = s.released := by simp [State.driveRst, h]

/-- A release of a level that was not asserted has no effect (log 12). -/
theorem driveRst_released (h : s.rst = false) : s.driveRst false = s := by simp [State.driveRst, h]

/-- What a step is, by the turn it takes; where it keeps the list, `r` is the list itself. -/
inductive StepCase (s : State) : Result → Prop where
  | pass (r : List Input) (h : s.engineReady = true) : StepCase s (exec s.pass { s with inputs := r })
  | app (cmd : BitVec 4) (idx : Byte) (w : Word) (r : List Input) :
      StepCase s (exec (decodeCommand cmd idx w) { s with inputs := r })
  | bus (c : BitVec 2) (r : List Input) (hi : s.inputs = .bus c :: r) (h : s.engineReady = false) :
      StepCase s (exec (decodeAction c) { s with inputs := r })
  | wire (x : Byte) (r : List Input) (h : s.engineReady = false) :
      StepCase s (exec (decodeWire x) { s with inputs := r })
  | quiet (r : List Input) : StepCase s (.next { s with inputs := r })
  | rst (level : Bool) (r : List Input) (hi : s.inputs = .rst level :: r) :
      StepCase s (.next ({ s with inputs := r }.driveRst level))
  | cfg (a : BitVec 7) (r : List Input) : StepCase s (.next { s with inputs := r, cfgAddr := a })

theorem step_case (s : State) : StepCase s (step s) := by
  cases hi : s.inputs with
  | nil =>
    cases h : s.engineReady with
    | true => exact step_pass_first (rest := []) h (.inl hi) ▸ .pass s.inputs h
    | false => exact step_nil_waits hi h ▸ .quiet s.inputs
  | cons turn rest =>
    cases turn with
    | bus c =>
      cases h : s.engineReady with
      | true => exact step_pass_first h (.inr (.inl ⟨c, hi⟩)) ▸ .pass s.inputs h
      | false => exact step_bus_turn hi h ▸ .bus c rest hi h
    | wire x =>
      cases h : s.engineReady with
      | true => exact step_pass_first h (.inr (.inr ⟨x, hi⟩)) ▸ .pass s.inputs h
      | false => exact step_wire_turn hi h ▸ .wire x rest h
    | app cmd idx w => exact step_app hi ▸ .app cmd idx w rest
    | engine =>
      cases h : s.engineReady with
      | true => exact step_engine_ready hi h ▸ .pass rest h
      | false => exact step_engine_waits hi h ▸ .quiet rest
    | rst level => exact step_rst hi ▸ .rst level rest hi
    | cfg a => exact step_cfg hi ▸ .cfg a rest

end StepRules

/-- Settles O43: clause by clause, the equation of the turn at the head of the list. -/
theorem stepRunsTheInstructionOfTheTurn : Obligations.StepRunsTheInstructionOfTheTurn := by
  intro s rest
  refine ⟨fun cmd idx w i hi hd => ?_, fun c i hi h hd => ?_, fun x i hi h hd => ?_, fun i hi h hd => ?_,
    fun i h hd hi => ?_, step_nil_waits, step_engine_waits, fun a => step_cfg⟩
  · cases hd
    exact step_app hi
  · cases hd
    exact step_bus_turn hi h
  · cases hd
    exact step_wire_turn hi h
  · cases (decode_key_eq_pass s).symm.trans hd
    exact step_engine_ready hi h
  · cases (decode_key_eq_pass s).symm.trans hd
    exact step_pass_first h hi

/-- Settles O17: by the two flags, the pass of the key the engine forms. -/
theorem engineTurnTakesTheSelectedPass : Obligations.EngineTurnTakesTheSelectedPass := by
  intro s rest hrst hi
  by_cases hscl : s.sclPull = true
  · rw [step_engine_ready hi (engineReady_iff.2 ⟨hscl, hrst⟩), State.pass]
    cases hstart : s.startPend with
    | true => rfl
    | false =>
      have hovf : s.ovfPend = true := (sclPull_iff.1 hscl).resolve_left (ne_true_of_eq_false hstart)
      rw [hovf]
      rfl
  · obtain ⟨hstart, hovf⟩ := sclPull_eq_false.1 (Bool.eq_false_iff.2 hscl)
    rw [step_engine_waits hi (Bool.eq_false_iff.2 fun h => hscl (engineReady_iff.1 h).1), hstart, hovf]
    rfl

/-- Settles O18: the engine's turn is the START pass (O17), which clears both flags (O4). -/
theorem pendingStartIsTakenFirstAndDiscardsTheOverflow :
    Obligations.PendingStartIsTakenFirstAndDiscardsTheOverflow := by
  intro s rest hrst hstart _ hi
  have hturn := engineTurnTakesTheSelectedPass s rest hrst hi
  rw [if_pos hstart] at hturn
  have hpass := startPassRestartsTheTransactionAndKeepsThePointer s.st s.ap { s with inputs := rest } hrst hstart
  exact ⟨_, hturn.trans hpass, rfl, rfl, rfl, rfl, rfl, rfl⟩

/-- Settles O2: every instruction begins in a frame that refuses it under `rst`; the two turns of `rst` by their equation. -/
theorem resetInputStopsEveryAgentAndItsReleaseResets : Obligations.ResetInputStopsEveryAgentAndItsReleaseResets := by
  refine ⟨fun i s hrst => ?_, fun s rest hi => step_rst hi, fun s rest hrst hi => ⟨?_, rfl, fun i => ?_⟩⟩
  · cases i with
    | addrW | addrR => exact sendBits_refused (running_inReset hrst)
    | _ => exact running_inReset hrst
  · rw [step_rst hi, driveRst_release (s := { s with inputs := rest }) hrst]
    rfl
  · exact State.rfByte_resetOf _ _ _ i

/-- Settles O3: no instruction writes `sa` (O49), and of the other turns only the release of `rst` does. -/
theorem onlyTheReleaseOfResetWritesTheSlaveAddress : Obligations.OnlyTheReleaseOfResetWritesTheSlaveAddress := by
  intro s t h
  have hexec {i : Instr} {r : List Input} (hi : exec i { s with inputs := r } = .next t) : t.sa = s.sa := by
    obtain ⟨-, hsa, -⟩ := eachElementIsWrittenOnlyByItsSteps _ _ _ hi
    exact hsa
  generalize hres : step s = res at h
  cases hres ▸ step_case s with
  | pass | app | bus | wire => exact .inl (hexec h)
  | quiet | cfg =>
    cases h
    exact .inl rfl
  | rst level r hi =>
    cases h
    cases level with
    | true => exact .inl rfl
    | false =>
      rcases Bool.eq_false_or_eq_true s.rst with hrst | hrst
      · rw [driveRst_release (s := { s with inputs := r }) hrst, hi]
        exact .inr ⟨hrst, rfl, rfl⟩
      · rw [driveRst_released (s := { s with inputs := r }) hrst]
        exact .inl rfl

section InvariantRules

variable {s t : State} {i : Instr}

/-! ### The invariants of a state with no event pending -/

/-- An idle state with nothing pending needs only its pointer and its file checked. -/
theorem State.Idle.inv (h : s.Idle) (hscl : s.sclPull = false) (hptr : s.ptr.toNat < s.n)
    (hwf : Memory.wf s.params s.rf = true) : s.Inv := by
  obtain ⟨hstart, hovf⟩ := sclPull_eq_false.1 hscl
  have ⟨hst, hap, _, hoe, hcnt⟩ := h
  exact {
    ptr_lt := hptr
    cnt_le := by rw [hcnt]; decide
    st_le := by rw [hst]; decide
    detached_idle := fun _ => h
    ack_cnt := fun hack => absurd hack (ne_true_of_eq_false hap)
    ovf_cnt := fun hpend => absurd hpend (ne_true_of_eq_false hovf)
    address_byte := fun _ => hap
    read_pre_ack := fun hpre => by cases hst.symm.trans hpre
    driving := fun hdrive => absurd hdrive (ne_true_of_eq_false hoe)
    one_event := fun hboth => ne_true_of_eq_false hstart hboth.1
    rf_wf := hwf }

/-- An attached state right after a pass: the counter as the pass loaded it (42_bus_and_bit_counter.md R184), and a pair of
`st` and `ap` that occurs (10_state.md R36.7, R36.8). -/
theorem State.Inv.of_attached (hen : s.ovfEn = true) (hscl : s.sclPull = false) (hcnt : s.cnt = if s.ap then 1 else 8)
    (hptr : s.ptr.toNat < s.n) (hwf : Memory.wf s.params s.rf = true) (hst : s.st.toNat ≤ 5)
    (haddress : s.st = awaitAddress → s.ap = false) (hpre : s.st = readDataPre → s.ap = true)
    (hdrive : s.sdaOe = true → s.ap = false → s.st = readAckPoll) : s.Inv where
  ptr_lt := hptr
  cnt_le := by rw [hcnt]; split <;> decide
  st_le := hst
  detached_idle h := absurd hen (ne_true_of_eq_false h)
  ack_cnt h := by rw [hcnt, if_pos h]; decide
  ovf_cnt h := absurd h (ne_true_of_eq_false (sclPull_eq_false.1 hscl).2)
  address_byte := haddress
  read_pre_ack := hpre
  driving := hdrive
  one_event h := ne_true_of_eq_false (sclPull_eq_false.1 hscl).1 h.1
  rf_wf := hwf

/-! ### What keeps the invariants -/

/-- The invariants do not speak of the turns, `cfg_addr`, `rst` and the results, and only of the form of the file. -/
theorem State.Inv.of_file (h : s.Inv) {m : Memory} (hwf : Memory.wf s.params m = true) {d : Word} {e : BitVec 2} {r : Bool}
    {c : BitVec 7} {ts : List Input} :
    State.Inv { s with rf := m, rdata := d, err := e, rst := r, cfgAddr := c, inputs := ts } :=
  { h with rf_wf := hwf }

theorem State.Inv.withTurns (h : s.Inv) (r : List Input) : State.Inv { s with inputs := r } := h.of_file h.rf_wf

/-- A pass keeps the invariants: it goes idle, or it leaves the block attached with a fresh counter. -/
theorem PassEffect.inv (h : PassEffect s t) (hs : s.Inv) : t.Inv := by
  have hcnt := h.cnt_eq
  have hscl := h.sclPull
  have hen (ho : s.ovfPend = true) : s.ovfEn = true := (hs.ovf_cnt ho).2
  have hstore : postWriteAck.toNat ≤ 5 := by decide
  have hsend : readAckPoll.toNat ≤ 5 := by decide
  cases h with
  | idle => exact State.Idle.inv ⟨rfl, rfl, rfl, rfl, rfl⟩ hscl hs.ptr_lt hs.rf_wf
  | start =>
    have hst : awaitAddress.toNat ≤ 5 := by decide
    exact .of_attached rfl hscl hcnt hs.ptr_lt hs.rf_wf hst (fun _ => rfl) nofun nofun
  | ackAddress ho =>
    refine .of_attached (hen ho) hscl hcnt hs.ptr_lt hs.rf_wf ?_ ?_ (fun _ => rfl) nofun <;>
      cases s.rxRw
    · exact Nat.le_of_ble_eq_true rfl
    · exact Nat.le_of_ble_eq_true rfl
    · exact nofun
    · exact nofun
  | pointer ho =>
    have hst : writeData.toNat ≤ 5 := by decide
    exact .of_attached (hen ho) hscl hcnt (s.wrapPtr_lt _) hs.rf_wf hst nofun (fun _ => rfl) nofun
  | endAck ho _ hst =>
    refine .of_attached (hen ho) hscl hcnt hs.ptr_lt hs.rf_wf hs.st_le (fun _ => rfl) (fun hpre => ?_) nofun
    have hst' : s.st = readDataPre := hpre
    rcases hst with hst | hst | hst <;> cases hst.symm.trans hst'
  | store ho _ hp => exact .of_attached (hen ho) hscl hcnt hp (State.wf_setRfByte hs.rf_wf hp) hstore nofun nofun nofun
  | storeNext ho =>
    exact .of_attached (hen ho) hscl hcnt s.incPtr_lt
      (State.wf_setRfByte (s := { s with ptr := s.incPtr }) hs.rf_wf s.incPtr_lt) hstore nofun nofun nofun
  | load ho _ hp => exact .of_attached (hen ho) hscl hcnt hp hs.rf_wf hsend nofun nofun (fun _ _ => rfl)
  | sent ho _ hst =>
    exact .of_attached (hen ho) hscl hcnt hs.ptr_lt hs.rf_wf hs.st_le
      (fun h => by cases hst.symm.trans h) (fun _ => rfl) nofun
  | loadNext ho => exact .of_attached (hen ho) hscl hcnt s.incPtr_lt hs.rf_wf hsend nofun nofun (fun _ _ => rfl)

theorem State.cntAfterClock_le (s : State) : s.cntAfterClock.toNat ≤ s.cnt.toNat := by
  rw [State.cntAfterClock_eq]
  split <;> bv_omega

/-- An enabled CLOCK keeps the invariants: a detached counter stays, and the event comes with the counter at 0. -/
theorem State.Inv.clocked (hs : s.Inv) (h : s.ClockReady) (b : Bool) : (s.clocked b).Inv := by
  obtain ⟨hstart, hovf⟩ := sclPull_eq_false.1 h.2
  exact { hs with
    cnt_le := s.cntAfterClock_le.trans hs.cnt_le
    detached_idle := fun hdetached => by
      obtain ⟨hst, hap, hen, hoe, hcnt⟩ := hs.detached_idle hdetached
      exact ⟨hst, hap, hen, hoe, (State.clockedAll_cnt_of_resting (s := s) (.inl hdetached) [b]).trans hcnt⟩
    ack_cnt := fun hap => s.cntAfterClock_le.trans (hs.ack_cnt hap)
    ovf_cnt := fun hpend => by
      rw [State.clocked_ovfPend, State.ovfAfterClock_eq, hovf, Bool.false_or, decide_eq_true_eq] at hpend
      obtain ⟨hen, hcnt⟩ := hpend
      refine ⟨?_, hen⟩
      rw [State.clocked_cnt, State.cntAfterClock_eq, hcnt, if_pos ⟨hen, by decide⟩]
      decide
    one_event := fun hboth => ne_true_of_eq_false hstart hboth.1 }

theorem sendBits_inv {bs : List Bool} (hs : s.Inv) (h : sendBits bs s = .next t) : t.Inv :=
  sendBits_keeps (P := State.Inv) (fun _ b hu hready => hu.clocked hready b) (fun _ _ hu _ _ hpass => hpass.inv hu) hs h

/-- Every instruction keeps the invariants. -/
theorem exec_inv (hs : s.Inv) (h : exec i s = .next t) : t.Inv := by
  cases exec_effect h with
  | pass _ hpass => exact hpass.inv hs
  | app _ hframe hwf =>
    rw [hframe]
    exact hs.of_file (hwf hs.rf_wf)
  | clock b _ hready => exact hs.clocked hready b
  | startCond _ hready =>
    obtain ⟨-, hscl, -⟩ := hready
    exact { hs with one_event := fun hboth => ne_true_of_eq_false (sclPull_eq_false.1 hscl).2 hboth.2 }
  | stopCond => exact { hs with }
  | wire _ _ hsend => exact sendBits_inv hs hsend

theorem resetOf_inv (p : Params) (cfg : BitVec 7) (ts : List Input) : (State.resetOf p cfg ts).Inv :=
  (State.idle_resetOf p cfg ts).inv rfl p.n_pos rfl

/-! ### What completes where the invariants hold -/

/-- The selected pass completes: `ptr < N`, so the raw byte port finds its byte. -/
theorem pass_completes (hs : s.Inv) (hrst : s.rst = false) (hscl : s.sclPull = true) : ∃ t, exec s.pass s = .next t := by
  obtain ⟨hrunStart, -, hrunOvf, -⟩ := passesRunExactlyWhenTheyAreSelected s.st s.ap s hrst
  by_cases hstart : s.startPend = true
  · rw [State.pass, if_pos hstart]
    exact hrunStart.2 hstart
  · have hready : s.PassReady s.st s.ap :=
      ⟨hrst, Bool.eq_false_iff.2 hstart, (sclPull_iff.1 hscl).resolve_left hstart, rfl, rfl⟩
    obtain ⟨t, ht, -⟩ := hrunOvf hready hs.ptr_lt
    exact ⟨t, hready.pass_eq ▸ ht⟩

/-- The bits of a wire byte all complete, each with its pass. -/
theorem sendBits_completes (bs : List Bool) (hs : s.Inv) (h : s.ClockReady) : ∃ t, sendBits bs s = .next t := by
  induction bs generalizing s with
  | nil => exact ⟨s, rfl⟩
  | cons b bs ih =>
    have hclocked := hs.clocked h b
    have hsettled : ∃ u, settle (s.clocked b) = .next u ∧ u.ClockReady := by
      by_cases hscl : (s.clocked b).sclPull = true
      · obtain ⟨u, hu⟩ := pass_completes hclocked h.1 hscl
        have heffect := pass_effect (State.pass_isPass _) hu
        rw [settle, if_pos hscl, enginePass_eq_pass]
        exact ⟨u, hu, (heffect.protocolFrame (.refl _)).rst.trans h.1, heffect.sclPull⟩
      · rw [settle, if_neg hscl]
        exact ⟨_, rfl, h.1, Bool.eq_false_iff.2 hscl⟩
    obtain ⟨u, hu, hready⟩ := hsettled
    have hbit : clockAndSettle b s = .next u := clockAndSettle_eq_next.2 ⟨h.1, h.2, hu⟩
    obtain ⟨t, ht⟩ := ih (sendBits_inv (bs := [b]) hs (sendBits_cons_eq_next.2 ⟨u, hbit, rfl⟩)) hready
    exact ⟨t, sendBits_cons_eq_next.2 ⟨u, hbit, ht⟩⟩

theorem wire_completes (hs : s.Inv) (h : s.ClockReady) (x : Byte) : ∃ t, exec (decodeWire x) s = .next t := by
  obtain ⟨a, rfl | rfl⟩ := wire_cases x
  · rw [decodeWire_write]
    exact sendBits_completes _ hs h
  · rw [decodeWire_read]
    exact sendBits_completes _ hs h

/-- A decoded command completes (41_register_file_access.md R166). -/
theorem command_completes (cmd : BitVec 4) (idx : Byte) (w : Word) (hrst : s.rst = false) :
    ∃ t, exec (decodeCommand cmd idx w) s = .next t := by
  obtain ⟨w', henc⟩ : ∃ w', encode (decodeCommand cmd idx w) = .command cmd idx w' := by
    obtain ⟨-, henc | ⟨-, henc⟩⟩ := encode_decodeCommand cmd idx w
    · exact ⟨_, henc⟩
    · exact ⟨_, henc⟩
  obtain ⟨t, ht, -⟩ := applicationChecksDecideTheErrorCode _ cmd idx w' s henc hrst
  exact ⟨t, ht⟩

/-- A bus action with SCL free completes, but for a START or STOP while the block pulls SDA. -/
theorem action_outcome (c : BitVec 2) (h : s.ClockReady) :
    (∃ t, exec (decodeAction c) s = .next t) ∨
      exec (decodeAction c) s = .refused .sdaHeld ∧ s.sdaPull = true ∧ (c = 0b10#2 ∨ c = 0b11#2) := by
  by_cases hsda : s.sdaPull = true
  · obtain ⟨hstart, hstop⟩ := noStartOrStopWhileTheBlockPullsSda s h hsda
    rcases bitVec2_cases c with rfl | rfl | rfl | rfl
    · exact .inl ⟨_, exec_clock h false⟩
    · exact .inl ⟨_, exec_clock h true⟩
    · exact .inr ⟨hstart, hsda, .inl rfl⟩
    · exact .inr ⟨hstop, hsda, .inr rfl⟩
  · have hready : s.ConditionReady := ⟨h.1, h.2, Bool.eq_false_iff.2 hsda⟩
    left
    rcases bitVec2_cases c with rfl | rfl | rfl | rfl
    · exact ⟨_, exec_clock h false⟩
    · exact ⟨_, exec_clock h true⟩
    · exact ⟨_, startConditionRaisesTheStartEvent s hready⟩
    · exact ⟨_, stopConditionWritesOnlyTheFlag s hready⟩

end InvariantRules

/-- Settles O44: the reset state is idle, with nothing pending, the pointer at 0 and no byte listed. -/
theorem resetMeetsTheInvariants : Obligations.ResetMeetsTheInvariants := ⟨resetOf_inv, resetOf_inv _ _ _⟩

/-- Settles O45: by the turn; an instruction keeps the invariants, whichever agent takes it, and of the other turns only the
release of `rst` writes what they speak of, leaving the reset state. -/
theorem everyStepKeepsTheInvariants : Obligations.EveryStepKeepsTheInvariants := by
  intro s t hs h
  generalize hres : step s = res at h
  cases hres ▸ step_case s with
  | pass r | app _ _ _ r | bus _ r | wire _ r => exact exec_inv (hs.withTurns r) h
  | quiet r =>
    cases h
    exact hs.withTurns r
  | cfg =>
    cases h
    exact hs.of_file hs.rf_wf
  | rst level r =>
    cases h
    cases level with
    | true => exact hs.of_file hs.rf_wf
    | false =>
      rcases Bool.eq_false_or_eq_true s.rst with hrst | hrst
      · rw [driveRst_release (s := { s with inputs := r }) hrst]
        exact resetOf_inv _ _ _
      · rw [driveRst_released (s := { s with inputs := r }) hrst]
        exact hs.withTurns r

/-- Settles O46: by induction on the run; O44 is its start and O45 its step. -/
theorem everyReachableStateMeetsTheInvariants : Obligations.EveryReachableStateMeetsTheInvariants := by
  intro s h
  induction h with
  | reset p cfg turns => exact resetOf_inv p cfg turns
  | step _ hstep ih => exact everyStepKeepsTheInvariants _ _ ih hstep

/-- Settles O20: the step is the selected pass, which completes, releases SCL and writes no turn. -/
theorem pendingEventIsHandledInOneStep : Obligations.PendingEventIsHandledInOneStep := by
  intro s hs hrst hscl hi
  obtain ⟨t, ht⟩ := pass_completes hs hrst hscl
  have heffect := pass_effect s.pass_isPass ht
  have hready := engineReady_iff.2 ⟨hscl, hrst⟩
  have hstep : step s = exec s.pass s := by
    rcases hi with hi | ⟨c, rest, hi⟩
    · exact step_pass_first (rest := []) hready (.inl hi)
    · exact step_pass_first hready (.inr (.inl ⟨c, hi⟩))
  exact ⟨t, hstep.trans ht, ht, heffect.sclPull, (heffect.protocolFrame (.refl s)).inputs⟩

/-- Settles O33: the bus frame refuses each action, and a wire byte's first CLOCK; the step is the pass (log 2). -/
theorem noBusActionWhileAnEventIsPending : Obligations.NoBusActionWhileAnEventIsPending := by
  intro s hrst hscl
  refine ⟨fun i hi => ?_, fun rest hi => step_pass_first (engineReady_iff.2 ⟨hscl, hrst⟩) (.inr hi)⟩
  cases i with
  | clock | startCond | stopCond => exact busFrame_held hrst hscl
  | addrW | addrR => exact sendBits_refused (busFrame_held hrst hscl)
  | _ =>
    obtain ⟨_, h⟩ | ⟨_, h⟩ := hi
    · cases h
    · cases h

/-- Settles O47: by the turn; under `rst` every instruction is refused (O2), and otherwise all complete but the START and STOP
of a block that pulls SDA. -/
theorem noConditionStopsTheBlock : Obligations.NoConditionStopsTheBlock := by
  intro s hs
  obtain ⟨hinReset, -⟩ := resetInputStopsEveryAgentAndItsReleaseResets
  have hready (hrst : s.rst = false) (h : s.engineReady = false) : s.ClockReady :=
    ⟨hrst, Bool.eq_false_iff.2 fun hscl => ne_true_of_eq_false h (engineReady_iff.2 ⟨hscl, hrst⟩)⟩
  generalize hres : step s = res
  cases hres ▸ step_case s with
  | quiet | cfg | rst => exact .inl ⟨_, rfl⟩
  | pass r h =>
    obtain ⟨hscl, hrst⟩ := engineReady_iff.1 h
    exact .inl (pass_completes (hs.withTurns r) hrst hscl)
  | app cmd idx w r =>
    rcases Bool.eq_false_or_eq_true s.rst with hrst | hrst
    · exact .inr (.inl ⟨hinReset _ _ hrst, hrst⟩)
    · exact .inl (command_completes cmd idx w hrst)
  | wire x r h =>
    rcases Bool.eq_false_or_eq_true s.rst with hrst | hrst
    · exact .inr (.inl ⟨hinReset _ _ hrst, hrst⟩)
    · exact .inl (wire_completes (hs.withTurns r) (hready hrst h) x)
  | bus c r hi h =>
    rcases Bool.eq_false_or_eq_true s.rst with hrst | hrst
    · exact .inr (.inl ⟨hinReset _ _ hrst, hrst⟩)
    · rw [hi]
      rcases action_outcome (s := { s with inputs := r }) c (hready hrst h) with hnext | ⟨hheld, hsda, hc⟩
      · exact .inl hnext
      · refine .inr (.inr ⟨hheld, hsda, ?_⟩)
        rcases hc with rfl | rfl
        · exact .inl rfl
        · exact .inr rfl

end Sys2Proof.Machine

/-!
PROOFS. The register file seen from both ports (20_memory.md R57, 41_register_file_access.md R168): a read after a write of
the same width answers the value written.
-/

namespace Sys2Proof.Machine

section RoundTripRules

variable {s : State} {i : Nat} {idx : Byte}

/-! ### MemRead after MemWrite at the same index -/

theorem State.memRead8_memWrite8 (hwf : Memory.wf s.params s.rf = true) (v : BitVec 8) :
    (s.memWrite8 i v).memRead8 i = v := by
  rw [memRead8, memWrite8, rfByte_setRfByte hwf, if_pos rfl]

theorem State.memRead16_memWrite16 (hwf : Memory.wf s.params s.rf = true) (h : i + 2 ≤ s.n) (v : BitVec 16) :
    (s.memWrite16 i v).memRead16 i = v := by
  rw [memRead16, rfByte_memWrite16 hwf h, rfByte_memWrite16 hwf h, if_pos rfl, if_neg (by omega), if_pos rfl,
    BitVec.extractLsb'_append_extractLsb'_eq_extractLsb' (rfl : 8 = 0 + 8)]
  exact BitVec.extractLsb'_eq_self

theorem State.memRead32_memWrite32 (hwf : Memory.wf s.params s.rf = true) (h : i + 4 ≤ s.n) (v : BitVec 32) :
    (s.memWrite32 i v).memRead32 i = v := by
  have hbyte := State.rfByte_memWrite32 hwf h v
  have h₀ : (s.memWrite32 i v).rfByte i = v.extractLsb' 24 8 := by rw [hbyte, if_pos rfl]
  have h₁ : (s.memWrite32 i v).rfByte (i + 1) = v.extractLsb' 16 8 := by rw [hbyte, if_neg (by omega), if_pos rfl]
  have h₂ : (s.memWrite32 i v).rfByte (i + 2) = v.extractLsb' 8 8 := by
    rw [hbyte, if_neg (by omega), if_neg (by omega), if_pos rfl]
  have h₃ : (s.memWrite32 i v).rfByte (i + 3) = v.extractLsb' 0 8 := by
    rw [hbyte, if_neg (by omega), if_neg (by omega), if_neg (by omega), if_pos rfl]
  rw [memRead32, h₀, h₁, h₂, h₃, BitVec.extractLsb'_append_extractLsb'_eq_extractLsb' (rfl : 24 = 16 + 8),
    BitVec.extractLsb'_append_extractLsb'_eq_extractLsb' (rfl : 16 = 8 + 8),
    BitVec.extractLsb'_append_extractLsb'_eq_extractLsb' (rfl : 8 = 0 + 8)]
  exact BitVec.extractLsb'_eq_self

/-! ### The low part of an extended value -/

theorem extractLsb'_zext32 {n : Nat} (h : n ≤ 32) (x : BitVec n) : (x.setWidth 32).extractLsb' 0 n = x := by
  ext j hj
  simp [show j < 32 by omega, BitVec.getLsbD_eq_getElem hj]

theorem extractLsb'_sext32 {n : Nat} (h : n ≤ 32) (x : BitVec n) : (x.signExtend 32).extractLsb' 0 n = x := by
  ext j hj
  simp [show j < 32 by omega, BitVec.getElem_signExtend, hj]

/-- A SET that leaves `u` and a GET of the same width after it, both within bounds: they complete, and the GET answers what
it reads in `u`. -/
theorem get_after_set {get set : Instr} {w : Nat} {u : State} {answer : State → Word} {x : Word}
    (hset : exec set s = appFrame s idx w (u.answer 0 0))
    (hget : ∀ t, exec get t = appFrame t idx w (t.answer (answer t) 0)) (hrst : s.rst = false)
    (hframe : u = { s with rf := u.rf }) (h : idx.toNat + w ≤ s.n) (hx : answer (u.answer 0 0) = x) :
    ∃ t v, exec set s = .next t ∧ exec get t = .next v ∧ v.rdata = x ∧ v.err = 0 := by
  have hn : (u.answer 0 0).n = s.n := by rw [hframe]; rfl
  have hrst' : (u.answer 0 0).rst = false := by rw [hframe]; exact hrst
  exact ⟨_, _, hset.trans (appFrame_accepts hrst h), (hget _).trans (appFrame_accepts hrst' (hn.symm ▸ h)), hx, rfl⟩

/-! ### Two turns -/

variable {t u : State} {rest : List Input}

theorem run_two (h : step s = .next t) (h' : step t = .next u) : Host.Core.run core 2 s = .next u := by
  simp only [Host.Core.run, core, h, h']

/-- With the ACK armed the block pulls SDA (40_protocol_fsm.md R111). -/
theorem State.sdaPull_of_armed (hoe : s.sdaOe = true) (hsr : s.sr = 0) : s.sdaPull = true := by
  rw [State.sdaPull_of_driving hoe, hsr]
  rfl

/-- The engine's turn with the first data byte received: the byte is stored at `ptr` (40_protocol_fsm.md R121). -/
theorem step_store_turn (h : s.PassReady writeData false) (hptr : s.ptr.toNat < s.n) (hi : s.inputs = .engine :: rest) :
    step s = .next { (s.setRfByte s.ptr.toNat s.sr).armAck with st := postWriteAck, ovfPend := false, inputs := rest } := by
  have hready : s.engineReady = true := engineReady_iff.2 ⟨h.sclPull, h.1⟩
  have hpass : execOvfWriteDataByte { s with inputs := rest } = _ :=
    ovfFrame_completes (s := { s with inputs := rest }) h (rawWrite_eq_next.2 ⟨hptr, rfl⟩)
  rw [step_engine_ready hi hready, h.pass_eq]
  exact hpass

/-- The application's turn with a SET.U8 within bounds (41_register_file_access.md R159). -/
theorem step_set_turn {w : Word} (hrst : s.rst = false) (h : idx.toNat < s.n)
    (hi : s.inputs = .app 0b1000#4 idx w :: rest) :
    step s = .next { (s.setRfByte idx.toNat (low8 w)).answer 0 0 with inputs := rest } :=
  (step_app hi).trans (appFrame_accepts (s := { s with inputs := rest }) hrst h)

end RoundTripRules

/-- Settles O29: each width by its read-after-write lemma; the value is the low part of the word it is given in. -/
theorem getAfterSetAnswersTheValue : Obligations.GetAfterSetAnswersTheValue := by
  intro idx s hrst hwf
  refine ⟨fun h x => ⟨?_, ?_⟩, fun h x => ⟨?_, ?_⟩, fun h x => ⟨?_, ?_⟩⟩
  · exact get_after_set (u := s.memWrite8 idx.toNat (low8 (x.setWidth 32))) rfl (fun _ => rfl) hrst rfl h
      (congrArg zext32 ((State.memRead8_memWrite8 hwf _).trans (extractLsb'_zext32 (by decide) x)))
  · exact get_after_set (u := s.memWrite8 idx.toNat (low8 (x.signExtend 32))) rfl (fun _ => rfl) hrst rfl h
      (congrArg sext32 ((State.memRead8_memWrite8 hwf _).trans (extractLsb'_sext32 (by decide) x)))
  · exact get_after_set (u := s.memWrite16 idx.toNat (low16 (x.setWidth 32))) rfl (fun _ => rfl) hrst rfl h
      (congrArg zext32 ((State.memRead16_memWrite16 hwf h _).trans (extractLsb'_zext32 (by decide) x)))
  · exact get_after_set (u := s.memWrite16 idx.toNat (low16 (x.signExtend 32))) rfl (fun _ => rfl) hrst rfl h
      (congrArg sext32 ((State.memRead16_memWrite16 hwf h _).trans (extractLsb'_sext32 (by decide) x)))
  · exact get_after_set (u := s.memWrite32 idx.toNat x) rfl (fun _ => rfl) hrst rfl h
      (State.memRead32_memWrite32 hwf h x)
  · exact get_after_set (u := s.memWrite32 idx.toNat x) rfl (fun _ => rfl) hrst rfl h
      (State.memRead32_memWrite32 hwf h x)

/-- Settles O50: the pass stores the byte the GET reads (O9); the SET stores first the byte the pass loads (O25, O11). -/
theorem bothPortsNameTheSameBytes : Obligations.BothPortsNameTheSameBytes := by
  constructor
  · intro s t hready hwf ht
    have hptr : s.ptr.toNat < s.n := by
      obtain ⟨-, u, hu, -⟩ := ovfPass_writes (i := .ovfWriteDataByte) (fun _ => rfl) ht
      exact (rawWrite_eq_next.1 hu).1
    obtain ⟨t', ht', hframe, hbytes⟩ := firstDataByteIsStoredAtThePointer s hready hptr hwf
    cases ht'.symm.trans ht
    have hrst : t.rst = false := by rw [hframe]; exact hready.1
    have hn : t.n = s.n := by rw [hframe]; rfl
    have hget : exec (.getU8 s.ptr) t = _ := appFrame_accepts hrst (by omega : s.ptr.toNat + 1 ≤ t.n)
    refine ⟨_, hget, ?_, rfl⟩
    show zext32 (t.rfByte s.ptr.toNat) = _
    rw [hbytes, if_pos rfl]
    rfl
  · intro s v hready hwf h
    obtain ⟨t, ht, hframe, hbytes⟩ := (wordSetsWriteFourBytesBigEndian s.ptr v _ s (.inl rfl) hready.1 hwf).1 h
    have hready' : t.PassReady readDataPre true := by rw [hframe]; exact hready
    have hptr : t.ptr = s.ptr := by rw [hframe]
    have hn : t.n = s.n := by rw [hframe]; rfl
    refine ⟨t, _, ht, firstReadByteIsLoadedFromThePointer t hready' (by rw [hptr]; omega), ?_⟩
    show t.rfByte t.ptr.toNat = _
    rw [hptr, hbytes, if_pos rfl]

/-- Settles O51: either step is the turn's own; the second finds the first one's byte and writes its own over it. -/
theorem passAndApplicationOperationMayGoInEitherOrder : Obligations.PassAndApplicationOperationMayGoInEitherOrder := by
  intro s w rest hready hptr hwf
  refine ⟨fun hi => ?_, fun hi => ?_⟩
  · have hset := step_set_turn hready.1 hptr hi
    have hpass := step_store_turn
      (s := { (s.setRfByte s.ptr.toNat (low8 w)).answer 0 0 with inputs := .engine :: rest }) hready hptr rfl
    refine ⟨_, run_two hset hpass, ?_, State.sdaPull_of_armed rfl rfl, rfl, rfl⟩
    exact (State.rfByte_setRfByte (s := s.setRfByte _ _) (State.wf_setRfByte hwf hptr)).trans (if_pos rfl)
  · have hpass := step_store_turn hready hptr hi
    have hset := step_set_turn (s := { (s.setRfByte s.ptr.toNat s.sr).armAck with
      st := postWriteAck, ovfPend := false, inputs := .app 0b1000#4 s.ptr w :: rest }) hready.1 hptr rfl
    refine ⟨_, run_two hpass hset, ?_, State.sdaPull_of_armed rfl rfl, rfl, rfl⟩
    exact (State.rfByte_setRfByte (s := s.setRfByte _ _) (State.wf_setRfByte hwf hptr)).trans (if_pos rfl)

end Sys2Proof.Machine

/-!
PROOFS. The wire address byte (30_encoding.md R80, log 4): the bits up to the overflow are plain CLOCKs, and the last one is
followed by the pass.
-/

namespace Sys2Proof.Machine

section WireRules

variable {s : State} {bs : List Bool}

theorem andThen_assoc (o : Result) (f g : State → Result) :
    andThen (andThen o f) g = andThen o (fun s => andThen (f s) g) := by
  cases o <;> rfl

theorem settle_eq_pass : settle = fun u => if u.sclPull then exec u.pass u else .next u := by
  funext u
  rw [settle, enginePass_eq_pass]

/-- The bits sent one after the other, each with its pass, as a fold over the outcome so far. -/
theorem foldl_bitThenPass (bs : List Bool) (o : Result) :
    bs.foldl (fun o b => andThen (andThen o (exec (.clock b))) (fun u => if u.sclPull then exec u.pass u else .next u)) o =
      andThen o (sendBits bs) := by
  rw [← settle_eq_pass]
  induction bs generalizing o with
  | nil => cases o <;> rfl
  | cons b bs ih =>
    rw [List.foldl_cons, ih, andThen_assoc, andThen_assoc]
    congr 1
    funext u
    exact (andThen_assoc _ _ _).symm

theorem sendBits_append (as : List Bool) : sendBits (as ++ bs) s = andThen (sendBits as s) (sendBits bs) := by
  induction as generalizing s with
  | nil => rfl
  | cons a as ih =>
    show andThen (clockAndSettle a s) (sendBits (as ++ bs)) = andThen (andThen (clockAndSettle a s) (sendBits as)) _
    rw [andThen_assoc]
    congr 1
    funext u
    exact ih

theorem andThen_next_right (o : Result) : andThen o (sendBits []) = o := by
  cases o <;> rfl

/-- The last bit is a CLOCK and the pass it calls for. -/
theorem sendBits_singleton (h : s.ClockReady) (b : Bool) : sendBits [b] s = settle (s.clocked b) := by
  show andThen (andThen (exec (.clock b) s) settle) (sendBits []) = _
  rw [exec_clock h, andThen_next, andThen_next_right]

/-- Bits that do not bring the counter to its overflow call for no pass. -/
theorem sendBits_eq_clockedAll (h : s.ClockReady)
    (hquiet : ¬ (s.ovfEn = true ∧ 0 < s.cnt.toNat ∧ s.cnt.toNat ≤ bs.length)) :
    sendBits bs s = .next (s.clockedAll bs) := by
  induction bs using List.reverseRecOn with
  | nil => rfl
  | append_singleton bs b ih =>
    have hquiet' : ¬ (s.ovfEn = true ∧ 0 < s.cnt.toNat ∧ s.cnt.toNat ≤ bs.length) :=
      fun ⟨hen, hpos, hle⟩ => hquiet ⟨hen, hpos, hle.trans (by simp)⟩
    have hready : (s.clockedAll bs).ClockReady := State.clockReady_clockedAll h hquiet'
    have hready' : (s.clockedAll (bs ++ [b])).ClockReady := State.clockReady_clockedAll h hquiet
    rw [State.clockedAll_concat] at hready' ⊢
    obtain ⟨-, hscl⟩ := hready'
    rw [sendBits_append, ih hquiet', andThen_next, sendBits_singleton hready]
    exact if_neg (ne_true_of_eq_false hscl)

/-- A block that does not drive SDA leaves the master's level on the line. -/
theorem State.sdaLine_listening (h : s.sdaOe = false) (b : Bool) : s.sdaLine b = b := by
  rw [sdaLine, sdaPull, h]
  exact Bool.and_true b

theorem State.clockedAll_sr_listening (h : s.sdaOe = false) (bs : List Bool) :
    (s.clockedAll bs).sr = shiftAll s.sr bs := by
  induction bs generalizing s with
  | nil => rfl
  | cons b bs ih =>
    rw [clockedAll_cons, ih (s := s.clocked b) h, clocked_sr, sdaLine_listening h]
    rfl

theorem State.clockedAll_line_listening (h : s.sdaOe = false) (bs : List Bool) (b : Bool) :
    (s.clockedAll (bs ++ [b])).line = b := by
  rw [clockedAll_concat, clocked_line, sdaLine_listening ((clockedAll_sdaOe bs).trans h)]

/-- The bits of a byte but its last. -/
def leadingBits (x : Byte) : List Bool :=
  [x.getLsbD 7, x.getLsbD 6, x.getLsbD 5, x.getLsbD 4, x.getLsbD 3, x.getLsbD 2, x.getLsbD 1]

theorem bitsMsbFirst_eq (x : Byte) : bitsMsbFirst x = leadingBits x ++ [x.getLsbD 0] := rfl

/-- Eight CLOCKs of a block that listens: the byte is in `sr`, and the event is pending (42_bus_and_bit_counter.md R184). -/
theorem State.clockedAll_byte (hoe : s.sdaOe = false) (hen : s.ovfEn = true) (hcnt : s.cnt = 8) (x : Byte) :
    s.clockedAll (bitsMsbFirst x) = { s with line := x.getLsbD 0, sr := x, cnt := 0, ovfPend := true } := by
  have hcnt' : s.cnt.toNat = 8 := congrArg BitVec.toNat hcnt
  have hline : (s.clockedAll (bitsMsbFirst x)).line = x.getLsbD 0 := clockedAll_line_listening hoe (leadingBits x) _
  have hsr : (s.clockedAll (bitsMsbFirst x)).sr = x := (clockedAll_sr_listening hoe _).trans (shiftAll_bits x s.sr)
  have hzero : (s.clockedAll (bitsMsbFirst x)).cnt = 0 := by
    apply BitVec.eq_of_toNat_eq
    rw [toNat_clockedAll_cnt hen, hcnt']
    rfl
  have hovf : (s.clockedAll (bitsMsbFirst x)).ovfPend = true := by
    rw [clockedAll_ovfPend, hcnt', hen]
    exact Bool.or_true _
  rw [clockedAll_frame, hline, hsr, hzero, hovf]

/-- In the address phase a wire byte is its CLOCKs and then the matcher's pass, with the byte in `sr` (40_protocol_fsm.md
R117). -/
theorem sendBits_addressPhase (h : s.AddressPhase) (x : Byte) :
    sendBits (bitsMsbFirst x) s =
      exec .ovfAwaitAddressByte { s with line := x.getLsbD 0, sr := x, cnt := 0, ovfPend := true } := by
  obtain ⟨hrst, hscl, hst, hap, hoe, hen, hcnt⟩ := h
  obtain ⟨hstart, -⟩ := sclPull_eq_false.1 hscl
  have hquiet : ¬ (s.ovfEn = true ∧ 0 < s.cnt.toNat ∧ s.cnt.toNat ≤ (leadingBits x).length) := by
    rw [hcnt]
    exact fun ⟨_, _, hle⟩ => absurd hle (by decide : ¬ 8 ≤ 7)
  have hready : (s.clockedAll (leadingBits x)).ClockReady := State.clockReady_clockedAll ⟨hrst, hscl⟩ hquiet
  have hpass : State.PassReady { s with line := x.getLsbD 0, sr := x, cnt := 0, ovfPend := true } awaitAddress false :=
    ⟨hrst, hstart, rfl, hst, hap⟩
  rw [bitsMsbFirst_eq, sendBits_append, sendBits_eq_clockedAll ⟨hrst, hscl⟩ hquiet, andThen_next,
    sendBits_singleton hready, ← State.clockedAll_concat, ← bitsMsbFirst_eq, State.clockedAll_byte hoe hen hcnt, settle,
    if_pos hpass.sclPull, enginePass_eq_pass, hpass.pass_eq]
  rfl

/-- The matcher's answer to a byte of the own address (O5): nothing else than the ACK's fields is left changed. -/
theorem sendBits_ownAddress {x : Byte} (h : s.AddressPhase) (hx : x.extractLsb' 1 7 = s.sa) :
    sendBits (bitsMsbFirst x) s =
      .next { s with sr := 0, sdaOe := true, cnt := 1, ap := true, line := x.getLsbD 0,
                     st := if x.getLsbD 0 then readDataPre else awaitRegisterPointer } := by
  have hphase := sendBits_addressPhase h x
  obtain ⟨hrst, hscl, hst, hap, -⟩ := h
  obtain ⟨hstart, hovf⟩ := sclPull_eq_false.1 hscl
  have hmatch := (addressMatcherAcksExactlyItsOwnAddress
    { s with line := x.getLsbD 0, sr := x, cnt := 0, ovfPend := true } ⟨hrst, hstart, rfl, hst, hap⟩).1 hx
  rw [hphase, hmatch, hovf]

/-- The matcher's answer to a byte of another address (O5): the block goes idle, as it was but for the attachment. -/
theorem sendBits_otherAddress {x : Byte} (h : s.AddressPhase) (hx : x.extractLsb' 1 7 ≠ s.sa) :
    sendBits (bitsMsbFirst x) s = .next { s with sr := x, ovfEn := false, line := x.getLsbD 0 } := by
  have hphase := sendBits_addressPhase h x
  obtain ⟨hrst, hscl, hst, hap, hoe, -, hcnt⟩ := h
  obtain ⟨hstart, hovf⟩ := sclPull_eq_false.1 hscl
  have hmatch := (addressMatcherAcksExactlyItsOwnAddress
    { s with line := x.getLsbD 0, sr := x, cnt := 0, ovfPend := true } ⟨hrst, hstart, rfl, hst, hap⟩).2 hx
  rw [hphase, hmatch, hst, hap, hoe, hcnt, hovf]

end WireRules

/-- Settles O38: the byte reaches the matcher, which compares its upper seven bits; its last bit is R/W and the level. -/
theorem addressByteOnTheWireReachesTheMatcher : Obligations.AddressByteOnTheWireReachesTheMatcher := by
  intro a s h
  have hwrite : (a ++ 0b0#1 : Byte).getLsbD 0 = false := getLsbD_addressByte a false
  have hread : (a ++ 0b1#1 : Byte).getLsbD 0 = true := getLsbD_addressByte a true
  refine ⟨fun ha => ⟨?_, ?_⟩, fun ha => ⟨?_, ?_⟩⟩
  · have hbyte := sendBits_ownAddress (x := a ++ 0b0#1) h ((extractLsb'_addressByte a _).trans ha)
    rwa [hwrite] at hbyte
  · have hbyte := sendBits_ownAddress (x := a ++ 0b1#1) h ((extractLsb'_addressByte a _).trans ha)
    rwa [hread] at hbyte
  · have hbyte := sendBits_otherAddress (x := a ++ 0b0#1) h (by rwa [extractLsb'_addressByte])
    rwa [hwrite] at hbyte
  · have hbyte := sendBits_otherAddress (x := a ++ 0b1#1) h (by rwa [extractLsb'_addressByte])
    rwa [hread] at hbyte

/-- Settles O39: the fold is `sendBits`, which completes from an invariant state and keeps the invariants. -/
theorem wireByteIsEightClocksAndTheirPasses : Obligations.WireByteIsEightClocksAndTheirPasses := by
  intro a s bitThenPass
  have hcompletes (bs : List Bool) (hs : s.Inv) (h : s.ClockReady) : ∃ t, sendBits bs s = .next t ∧ t.Inv := by
    obtain ⟨t, ht⟩ := sendBits_completes bs hs h
    exact ⟨t, ht, sendBits_inv hs ht⟩
  exact ⟨(foldl_bitThenPass _ (.next s)).symm, (foldl_bitThenPass _ (.next s)).symm,
    fun hs h => ⟨hcompletes _ hs h, hcompletes _ hs h⟩⟩

end Sys2Proof.Machine

/-!
PROOFS. Runs of the bus master's turns (30_encoding.md R94, R96), token by token: a START, a byte the block receives and
acknowledges, a byte it sends, and whatever a detached block is sent.
-/

namespace Sys2Proof.Machine

section TokenRules

variable {s t : State} {actions : List (BitVec 2)} {ts : List Input} {st : BitVec 3} {ap : Bool}

/-! ### The bus master's turns -/

/-- The pass of an OVF that is pending is handled before the master's next turn (30_encoding.md R96). -/
theorem goes_ovf_pass (h : s.PassReady st ap) (hi : s.inputs = turns actions)
    (he : exec (decodeOvf st ap) s = .next t) : Goes s t [] := by
  have hpass : enginePass s = .next t := by rw [enginePass_eq_pass, h.pass_eq, he]
  exact goes_pass h.1 h.sclPull (hi ▸ turns_cons_or actions) hpass

/-! ### START -/

/-- The state a START and its pass leave (40_protocol_fsm.md R116, 42_bus_and_bit_counter.md R186). -/
def State.started (s : State) (ts : List Input) : State :=
  { s with inputs := ts, stopFlag := false, st := awaitAddress, ap := false, sdaOe := false, cnt := 8, ovfEn := true }

theorem goes_tokS (h : s.ConditionReady) (hi : s.inputs = turns (tokS ++ actions)) :
    Goes s (s.started (turns actions)) [] :=
  goes_start h hi (turns_cons_or actions)

/-! ### A byte the block receives -/

/-- The block waits for a byte and drives neither line. -/
abbrev State.Listening (s : State) : Prop :=
  s.ClockReady ∧ s.ap = false ∧ s.sdaOe = false ∧ s.ovfEn = true ∧ s.cnt = 8

theorem State.ConditionReady.started_listening (h : s.ConditionReady) (ts : List Input) : (s.started ts).Listening :=
  ⟨⟨h.1, h.2.1⟩, rfl, rfl, rfl, rfl⟩

theorem State.Listening.conditionReady (h : s.Listening) : s.ConditionReady := by
  obtain ⟨⟨hrst, hscl⟩, -, hoe, -⟩ := h
  exact ⟨hrst, hscl, State.sdaPull_of_not_driving hoe⟩

/-- The byte `x` has been received; its pass is pending. -/
def State.byteIn (s : State) (x : Byte) (ts : List Input) : State :=
  { s with inputs := ts, line := x.getLsbD 0, sr := x, cnt := 0, ovfPend := true }

theorem State.Listening.passReady_byteIn (h : s.Listening) (x : Byte) (ts : List Input) :
    (s.byteIn x ts).PassReady s.st false := by
  obtain ⟨⟨hrst, hscl⟩, hap, -⟩ := h
  exact ⟨hrst, (sclPull_eq_false.1 hscl).1, rfl, rfl, hap⟩

theorem goes_tokW {x : Byte} (h : s.Listening) (hi : s.inputs = turns (tokW x ++ actions)) :
    Goes s (s.byteIn x (turns actions)) (bitsMsbFirst x) := by
  obtain ⟨hready, -, hoe, hen, hcnt⟩ := h
  exact goes_receive hready hoe hen hcnt (hi.trans (turns_append _ _))

/-- The pass of a received byte, which armed the ACK: the state, the pointer and the file are those it wrote. -/
def State.armed (s : State) (x : Byte) (st : BitVec 3) (ptr : Byte) (rf : Memory) (ts : List Input) : State :=
  { s with inputs := ts, line := x.getLsbD 0, sr := 0, sdaOe := true, cnt := 1, ap := true, st := st, ptr := ptr, rf := rf }

/-- The master has read the ACK of a byte; the pass after it is pending. -/
def State.acked (s : State) (st : BitVec 3) (ptr : Byte) (rf : Memory) (ts : List Input) : State :=
  { s with inputs := ts, line := false, sr := 0, sdaOe := true, cnt := 0, ap := true, st := st, ptr := ptr, rf := rf,
           ovfPend := true }

/-- The ACK is over: the block listens again. -/
def State.received (s : State) (st : BitVec 3) (ptr : Byte) (rf : Memory) (ts : List Input) : State :=
  { s with inputs := ts, line := false, sr := 0, st := st, ptr := ptr, rf := rf }

theorem State.Listening.received (h : s.Listening) (st : BitVec 3) (ptr : Byte) (rf : Memory) (ts : List Input) :
    (s.received st ptr rf ts).Listening := h

theorem State.Listening.passReady_acked (h : s.Listening) (st : BitVec 3) (ptr : Byte) (rf : Memory) (ts : List Input) :
    (s.acked st ptr rf ts).PassReady st true := by
  obtain ⟨⟨hrst, hscl⟩, -⟩ := h
  exact ⟨hrst, (sclPull_eq_false.1 hscl).1, rfl, rfl, rfl⟩

/-- The ACK clock of a block that has armed its ACK: the master reads a 0. -/
theorem goes_tokK_armed (h : s.ClockReady) (hoe : s.sdaOe = true) (hen : s.ovfEn = true) (hcnt : s.cnt = 1)
    (hsr : s.sr = 0) (hi : s.inputs = turns (tokK ++ actions)) :
    Goes s { s with inputs := turns actions, line := false, sr := 0, cnt := 0, ovfPend := true } [false] := by
  have hrun := goes_clock_sent h hoe hen hcnt hi
  have hbit : s.sr.getLsbD 7 = false := by rw [hsr]; decide
  have hshift : shiftIn s.sr false = 0 := by rw [hsr]; decide
  rwa [hbit, hshift] at hrun

/-- A byte whose pass arms the ACK: the master reads its own bits and a 0. -/
theorem goes_tokWB {x : Byte} {ptr : Byte} {rf : Memory} (h : s.Listening) (hi : s.inputs = turns (tokWB x ++ actions))
    (hpass : ∀ ts, exec (decodeOvf s.st false) (s.byteIn x ts) = .next (s.armed x st ptr rf ts)) :
    Goes s (s.acked st ptr rf (turns actions)) (bitsMsbFirst x ++ [false]) := by
  have ⟨⟨hrst, hscl⟩, _, _, hen, _⟩ := h
  rw [tokWB, List.append_assoc] at hi
  have hbyte := goes_tokW h hi
  have harm := goes_ovf_pass (h.passReady_byteIn x _) rfl (hpass (turns (tokK ++ actions)))
  have hack := goes_tokK_armed (s := s.armed x st ptr rf (turns (tokK ++ actions))) ⟨hrst, hscl⟩ rfl hen rfl rfl rfl
  exact hbyte.trans (harm.trans_nil hack)

/-- The end of the ACK of a byte in a write (40_protocol_fsm.md R120, R122, R124). -/
theorem goes_end_ack {ptr : Byte} {rf : Memory} (h : s.Listening)
    (hst : st = awaitRegisterPointer ∨ st = writeData ∨ st = postWriteAck) :
    Goes (s.acked st ptr rf (turns actions)) (s.received st ptr rf (turns actions)) [] := by
  have hready := h.passReady_acked st ptr rf (turns actions)
  obtain ⟨⟨-, hscl⟩, hap, hoe, -, hcnt⟩ := h
  have hend : exec (decodeOvf st true) (s.acked st ptr rf (turns actions)) =
      .next { s.acked st ptr rf (turns actions) with sdaOe := false, cnt := 8, ap := false, ovfPend := false } := by
    apply endOfTheSlavesAckReleasesSdaAndRearmsTheCounter _ _ st hready
    rcases hst with rfl | rfl | rfl
    · exact .inl ⟨rfl, rfl⟩
    · exact .inr (.inl ⟨rfl, rfl⟩)
    · exact .inr (.inr ⟨rfl, rfl⟩)
  have hres : { s.acked st ptr rf (turns actions) with sdaOe := false, cnt := 8, ap := false, ovfPend := false } =
      s.received st ptr rf (turns actions) := by
    rw [State.received, State.acked, hap, hoe, hcnt, (sclPull_eq_false.1 hscl).2]
  exact goes_ovf_pass hready rfl (hend.trans (congrArg _ hres))

/-! ### The passes of a received byte -/

/-- What an ACK-arming pass leaves, in the form of `armed`. -/
theorem State.Listening.armed_eq (h : s.Listening) (x : Byte) (st : BitVec 3) (ptr : Byte) (rf : Memory) (ts : List Input) :
    { s.byteIn x ts with sr := 0, sdaOe := true, cnt := 1, ap := true, st := st, ptr := ptr, rf := rf, ovfPend := false } =
      s.armed x st ptr rf ts := by
  obtain ⟨⟨-, hscl⟩, -⟩ := h
  rw [State.armed, State.byteIn, (sclPull_eq_false.1 hscl).2]

/-- A byte of the own address: its R/W bit selects the next state (40_protocol_fsm.md R117). -/
theorem State.Listening.pass_address (h : s.Listening) (hst : s.st = awaitAddress) {x : Byte}
    (hx : x.extractLsb' 1 7 = s.sa) (ts : List Input) :
    exec (decodeOvf s.st false) (s.byteIn x ts) =
      .next (s.armed x (if x.getLsbD 0 then readDataPre else awaitRegisterPointer) s.ptr s.rf ts) := by
  have hready := h.passReady_byteIn x ts
  rw [hst] at hready ⊢
  rw [← h.armed_eq]
  exact (addressMatcherAcksExactlyItsOwnAddress _ hready).1 hx

/-- The pointer byte (40_protocol_fsm.md R119). -/
theorem State.Listening.pass_pointer (h : s.Listening) (hst : s.st = awaitRegisterPointer) (x : Byte) (ts : List Input) :
    exec (decodeOvf s.st false) (s.byteIn x ts) = .next (s.armed x writeData (wrapPtr s.n x.toNat) s.rf ts) := by
  have hready := h.passReady_byteIn x ts
  rw [hst] at hready ⊢
  rw [← h.armed_eq]
  exact (pointerByteSetsThePointerModuloN _ hready).1

/-- The first data byte is stored at the pointer (40_protocol_fsm.md R121). -/
theorem State.Listening.pass_first_data (h : s.Listening) (hst : s.st = writeData) (hptr : s.ptr.toNat < s.n) (x : Byte)
    (ts : List Input) :
    exec (decodeOvf s.st false) (s.byteIn x ts) =
      .next (s.armed x postWriteAck s.ptr (Memory.write s.params s.rf s.ptr.toNat x) ts) := by
  have hready := h.passReady_byteIn x ts
  rw [hst] at hready ⊢
  rw [← h.armed_eq]
  have hpass : execOvfWriteDataByte (s.byteIn x ts) = _ :=
    ovfFrame_completes hready (rawWrite_eq_next.2 ⟨hptr, rfl⟩)
  exact hpass

/-- A further data byte is stored at the next index (40_protocol_fsm.md R123). -/
theorem State.Listening.pass_further_data (h : s.Listening) (hst : s.st = postWriteAck) (hstop : s.stopFlag = false)
    (x : Byte) (ts : List Input) :
    exec (decodeOvf s.st false) (s.byteIn x ts) =
      .next (s.armed x postWriteAck s.incPtr (Memory.write s.params s.rf s.incPtr.toNat x) ts) := by
  have hready := h.passReady_byteIn x ts
  rw [hst] at hready ⊢
  rw [← h.armed_eq]
  have hpass : execOvfPostWriteAckByte (s.byteIn x ts) = _ :=
    ovfFrame_completes hready
      ((if_neg (ne_true_of_eq_false hstop)).trans (rawWrite_eq_next.2 ⟨s.incPtr_lt, rfl⟩))
  exact hpass

/-- The first byte of a transaction, to the own address, up to its ACK. -/
theorem goes_own_address {x : Byte} (h : s.ConditionReady) (hx : x.extractLsb' 1 7 = s.sa)
    (hi : s.inputs = turns (tokS ++ (tokWB x ++ actions))) :
    Goes s ((s.started []).acked (if x.getLsbD 0 then readDataPre else awaitRegisterPointer) s.ptr s.rf (turns actions))
      (bitsMsbFirst x ++ [false]) := by
  have hlisten := h.started_listening (turns (tokWB x ++ actions))
  exact (goes_tokS h hi).trans_nil (goes_tokWB hlisten rfl (hlisten.pass_address rfl hx))

/-- START, the own address with R/W = 0 and the pointer byte: the block waits for data at `p mod N`. -/
theorem goes_pointer_write {p : Byte} (h : s.ConditionReady)
    (hi : s.inputs = turns (tokS ++ (tokWB (writeAddrByte s.sa) ++ (tokWB p ++ actions)))) :
    Goes s ((s.started []).received writeData (wrapPtr s.n p.toNat) s.rf (turns actions))
      (bitsMsbFirst (writeAddrByte s.sa) ++ [false] ++ (bitsMsbFirst p ++ [false])) := by
  have hrw : (writeAddrByte s.sa).getLsbD 0 = false := getLsbD_addressByte s.sa false
  have hlisten := h.started_listening []
  have haddress := goes_own_address (x := writeAddrByte s.sa) h (extractLsb'_addressByte s.sa _) hi
  rw [hrw] at haddress
  have hwait := haddress.trans_nil' (goes_end_ack hlisten (.inl rfl))
  have hlisten' := hlisten.received awaitRegisterPointer s.ptr s.rf (turns (tokWB p ++ actions))
  have hpointer := goes_tokWB hlisten' rfl (hlisten'.pass_pointer rfl p)
  exact hwait.trans (hpointer.trans_nil' (goes_end_ack hlisten' (.inr (.inl rfl))))

/-! ### Data bytes -/

/-- From `s` to `t` the bytes `ds` were stored, the `j`th at `index j`, where a later one may have replaced it; every other
byte is as before. -/
def State.Stored (s t : State) (index : Nat → Nat) (ds : List Byte) : Prop :=
  (∀ (j : Nat) (hj : j < ds.length), (∀ l, j < l → l < ds.length → index l ≠ index j) → t.rfByte (index j) = ds[j]) ∧
  ∀ i, (∀ j, j < ds.length → i ≠ index j) → t.rfByte i = s.rfByte i

theorem State.Stored.nil (index : Nat → Nat) (h : ∀ i, t.rfByte i = s.rfByte i) : s.Stored t index [] :=
  ⟨nofun, fun i _ => h i⟩

/-- One byte stored in front. -/
theorem State.Stored.cons {u : State} {index : Nat → Nat} {d : Byte} {ds : List Byte}
    (hfirst : ∀ i, u.rfByte i = if i = index 0 then d else s.rfByte i) (h : u.Stored t (fun j => index (j + 1)) ds) :
    s.Stored t index (d :: ds) := by
  obtain ⟨hstored, hkept⟩ := h
  constructor
  · intro j hj hlast
    cases j with
    | zero =>
      have hkeep := hkept (index 0) (fun l hl => (hlast (l + 1) (by omega) (Nat.succ_lt_succ hl)).symm)
      rw [hkeep, hfirst, if_pos rfl]
      rfl
    | succ j =>
      exact hstored j (Nat.lt_of_succ_lt_succ hj) fun l hjl hl => hlast (l + 1) (by omega) (Nat.succ_lt_succ hl)
  · intro i hi
    rw [hkept i (fun j hj => hi (j + 1) (Nat.succ_lt_succ hj)), hfirst, if_neg (hi 0 (Nat.succ_pos _))]

/-- Data bytes after the first: each at the next index, each with its ACK (40_protocol_fsm.md R123, R130). -/
theorem goes_further_data (ds : List Byte) (h : s.Listening) (hst : s.st = postWriteAck) (hstop : s.stopFlag = false)
    (hptr : s.ptr.toNat < s.n) (hwf : Memory.wf s.params s.rf = true)
    (hi : s.inputs = turns (ds.flatMap tokWB ++ actions)) :
    ∃ t, Goes s t (ds.flatMap fun x => bitsMsbFirst x ++ [false]) ∧
      t = { s with inputs := turns actions, line := t.line, sr := t.sr, ptr := t.ptr, rf := t.rf } ∧
      t.ptr.toNat = (s.ptr.toNat + ds.length) % s.n ∧ s.Stored t (fun j => (s.ptr.toNat + 1 + j) % s.n) ds := by
  induction ds generalizing s with
  | nil =>
    have hi' : s.inputs = turns actions := hi
    refine ⟨s, .refl, ?_, (Nat.mod_eq_of_lt hptr).symm, .nil _ fun _ => rfl⟩
    rw [← hi']
  | cons d ds ih =>
    rw [List.flatMap_cons, List.append_assoc] at hi
    let u := s.received postWriteAck s.incPtr (Memory.write s.params s.rf s.incPtr.toNat d)
      (turns (ds.flatMap tokWB ++ actions))
    have hfirst : Goes s u (bitsMsbFirst d ++ [false]) :=
      (goes_tokWB h hi (h.pass_further_data hst hstop d)).trans_nil' (goes_end_ack h (.inr (.inr rfl)))
    obtain ⟨t, hrest, hframe, hptr', hstored⟩ := ih (s := u) h rfl hstop s.incPtr_lt (Memory.wf_write hwf s.incPtr_lt) rfl
    have hinc : u.ptr.toNat = (s.ptr.toNat + 1) % s.n := s.toNat_incPtr
    have hn : u.n = s.n := rfl
    refine ⟨t, ?_, ?_, ?_, .cons (u := u) (fun i => ?_) ?_⟩
    · rw [List.flatMap_cons]
      exact hfirst.trans hrest
    · rw [hframe, show u.st = s.st from hst.symm]
      rfl
    · rw [hptr', hinc, hn, Nat.mod_add_mod, List.length_cons, Nat.add_assoc, Nat.add_comm 1]
    · rw [Nat.add_zero, ← s.toNat_incPtr]
      exact Memory.read_write hwf
    · simpa only [hinc, hn, Nat.mod_add_mod, Nat.add_assoc, Nat.add_comm 1] using hstored

/-- All data bytes of a write, from the pointer the transaction has set. -/
theorem goes_data (ds : List Byte) (h : s.Listening) (hst : s.st = writeData) (hstop : s.stopFlag = false)
    (hptr : s.ptr.toNat < s.n) (hwf : Memory.wf s.params s.rf = true)
    (hi : s.inputs = turns (ds.flatMap tokWB ++ actions)) :
    ∃ t, Goes s t (ds.flatMap fun x => bitsMsbFirst x ++ [false]) ∧
      t = { s with inputs := turns actions, line := t.line, sr := t.sr, ptr := t.ptr, rf := t.rf,
                   st := if ds = [] then writeData else postWriteAck } ∧
      t.ptr.toNat = (if ds = [] then s.ptr.toNat else (s.ptr.toNat + (ds.length - 1)) % s.n) ∧
      s.Stored t (fun j => (s.ptr.toNat + j) % s.n) ds := by
  cases ds with
  | nil =>
    have hi' : s.inputs = turns actions := hi
    refine ⟨s, .refl, ?_, rfl, .nil _ fun _ => rfl⟩
    rw [← hi', if_pos rfl, ← hst]
  | cons d ds =>
    rw [List.flatMap_cons, List.append_assoc] at hi
    let u := s.received postWriteAck s.ptr (Memory.write s.params s.rf s.ptr.toNat d)
      (turns (ds.flatMap tokWB ++ actions))
    have hfirst : Goes s u (bitsMsbFirst d ++ [false]) :=
      (goes_tokWB h hi (h.pass_first_data hst hptr d)).trans_nil' (goes_end_ack h (.inr (.inr rfl)))
    obtain ⟨t, hrest, hframe, hptr', hstored⟩ :=
      goes_further_data (s := u) ds h rfl hstop hptr (Memory.wf_write hwf hptr) rfl
    refine ⟨t, ?_, ?_, hptr', .cons (u := u) (fun i => ?_) ?_⟩
    · rw [List.flatMap_cons]
      exact hfirst.trans hrest
    · rw [hframe]
      rfl
    · rw [Nat.add_zero, Nat.mod_eq_of_lt hptr]
      exact Memory.read_write hwf
    · have hstored' : u.Stored t (fun j => (s.ptr.toNat + 1 + j) % s.n) ds := hstored
      simpa only [Nat.add_assoc, Nat.add_comm 1] using hstored'

end TokenRules

/-- Settles O52: START, the address, the pointer byte and the data, each token's run after the one before, then the STOP. -/
theorem writeTransactionStoresItsBytesAndAcksEach : Obligations.WriteTransactionStoresItsBytesAndAcksEach := by
  intro s p ds h hwf hi index
  have hi' : s.inputs =
      turns (tokS ++ (tokWB (writeAddrByte s.sa) ++ (tokWB p ++ (ds.flatMap tokWB ++ tokP)))) := by
    rw [hi, writeTranscript]
    simp only [List.append_assoc]
  have hhead := goes_pointer_write h hi'
  have hlisten := (h.started_listening []).received writeData (wrapPtr s.n p.toNat) s.rf (turns (ds.flatMap tokWB ++ tokP))
  obtain ⟨t, hdata, hframe, hptr, hstored⟩ := goes_data ds hlisten rfl rfl (s.wrapPtr_lt p.toNat) hwf rfl
  have hlisten' : t.Listening := by rw [hframe]; exact hlisten
  have hinputs : t.inputs = turns tokP := by rw [hframe]
  have hst : t.st = if ds = [] then writeData else postWriteAck := by rw [hframe]
  obtain ⟨k, hrun⟩ := hhead.trans (hdata.trans_nil' (goes_stop hlisten'.conditionReady hinputs))
  have hstart : ((s.started []).received writeData (wrapPtr s.n p.toNat) s.rf (turns (ds.flatMap tokWB ++ tokP))).ptr.toNat =
      p.toNat % s.n := s.toNat_wrapPtr p.toNat
  rw [hstart] at hptr hstored
  obtain ⟨⟨-, hscl⟩, hap, -, hen, -⟩ := hlisten'
  refine ⟨k, _, _, hrun, ⟨rfl, hscl⟩, hstored.1, hstored.2, hptr, hst, hap, hen, rfl, ?_⟩
  simp only [List.flatMap_cons, List.append_assoc]

end Sys2Proof.Machine

/-!
PROOFS. Reads, transactions to another address, and transcripts with application tokens (40_protocol_fsm.md section 5,
30_encoding.md section 7).
-/

namespace Sys2Proof.Machine

section ReadRules

variable {s t : State} {actions : List (BitVec 2)} {ts : List Input}

/-! ### A byte the block sends -/

/-- The block sends the byte in `sr`, and none of its bits has been clocked yet. -/
abbrev State.Sending (s : State) : Prop :=
  s.ClockReady ∧ s.st = readAckPoll ∧ s.ap = false ∧ s.sdaOe = true ∧ s.ovfEn = true ∧ s.cnt = 8

/-- The byte has been sent and the master has answered it with the bit `b`; the pass is pending. -/
def State.polled (s : State) (b : Bool) (ts : List Input) : State :=
  { s with inputs := ts, line := b, sr := shiftIn s.sr b, sdaOe := false, cnt := 0, ap := true, ovfPend := true }

/-- The master's answer to a byte it has read: the block has released SDA and counts this one bit. -/
theorem goes_answer {b : Bool} (h : s.ClockReady) (hoe : s.sdaOe = false) (hen : s.ovfEn = true) (hcnt : s.cnt = 1)
    (hi : s.inputs = .bus (clockCode b) :: ts) :
    Goes s { s with inputs := ts, line := b, sr := shiftIn s.sr b, cnt := 0, ovfPend := true } [b] := by
  have hrun := goes_clock h hi
  have hlevel := State.sdaLine_listening hoe b
  have hzero : s.cntAfterClock = 0 := by
    rw [State.cntAfterClock_eq, hcnt, if_pos ⟨hen, by decide⟩]
    decide
  have hovf : s.ovfAfterClock = true := by
    rw [State.ovfAfterClock_eq, hcnt, hen]
    exact Bool.or_true _
  have hclocked : State.clocked { s with inputs := ts } b =
      { s with inputs := ts, line := b, sr := shiftIn s.sr b, cnt := 0, ovfPend := true } := by
    show ({ s with inputs := ts, line := s.sdaLine b, sr := shiftIn s.sr (s.sdaLine b), cnt := s.cntAfterClock,
                   ovfPend := s.ovfAfterClock } : State) = _
    rw [hlevel, hzero, hovf]
  rwa [hlevel, hclocked] at hrun

/-- One byte read and answered: the master sees the byte, most significant bit first, and its own bit
(42_bus_and_bit_counter.md R181, 40_protocol_fsm.md R127). -/
theorem goes_sent_byte {b : Bool} (h : s.Sending) (hi : s.inputs = turns tokR ++ (.bus (clockCode b) :: ts)) :
    Goes s (s.polled b ts) (bitsMsbFirst s.sr ++ [b]) := by
  obtain ⟨hready, hst, hap, hoe, hen, hcnt⟩ := h
  obtain ⟨hrst, hscl⟩ := hready
  obtain ⟨hstart, hovf⟩ := sclPull_eq_false.1 hscl
  obtain ⟨l, hsend⟩ := goes_send ⟨hrst, hscl⟩ hoe hen hcnt hi
  let sent : State := { s with inputs := .bus (clockCode b) :: ts, line := l, cnt := 0, ovfPend := true }
  have hpoll : sent.PassReady readAckPoll false := ⟨hrst, hstart, rfl, hst, hap⟩
  have hpass : enginePass sent = .next { sent with sdaOe := false, cnt := 1, ap := true, ovfPend := false } := by
    rw [enginePass_eq_pass, hpoll.pass_eq]
    exact sentByteOpensTheMastersAckWindow sent hpoll
  have hwindow := goes_pass hpoll.1 hpoll.sclPull (.inr ⟨_, _, rfl⟩) hpass
  have hanswer := goes_answer (s := { sent with sdaOe := false, cnt := 1, ap := true, ovfPend := false }) (b := b) (ts := ts)
    ⟨hrst, sclPull_eq_false.2 ⟨hstart, rfl⟩⟩ rfl hen rfl rfl
  exact hsend.trans (hwindow.trans_nil hanswer)

/-- The next byte of a read is loaded, with the pointer advanced to it. -/
def State.loadedNext (s : State) (ts : List Input) : State :=
  { s with inputs := ts, line := false, sr := s.rfByte s.incPtr.toNat, ptr := s.incPtr }

theorem State.Sending.loadedNext (h : s.Sending) (ts : List Input) : (s.loadedNext ts).Sending := h

/-- After the master's ACK the next byte is loaded (40_protocol_fsm.md R128). -/
theorem State.Sending.pass_ack (h : s.Sending) (ts : List Input) :
    enginePass (s.polled false ts) = .next (s.loadedNext ts) := by
  obtain ⟨⟨hrst, hscl⟩, hst, hap, hoe, hen, hcnt⟩ := h
  obtain ⟨hstart, hovf⟩ := sclPull_eq_false.1 hscl
  have hready : (s.polled false ts).PassReady readAckPoll true := ⟨hrst, hstart, rfl, hst, rfl⟩
  have hack : (s.polled false ts).sr.getLsbD 0 = false := getLsbD_shiftIn s.sr false 0
  have hpass : execOvfReadAckPollAck (s.polled false ts) = _ := ovfFrame_completes hready
    ((if_neg (ne_true_of_eq_false hack)).trans (rawRead_eq_next.2 ⟨s.incPtr_lt, rfl⟩))
  have hres : { ({ s.polled false ts with ptr := s.incPtr } : State).loadTx (s.rfByte s.incPtr.toNat) with
      ovfPend := false } = s.loadedNext ts := by
    rw [State.loadedNext, State.loadTx, State.polled, hst, hap, hoe, hcnt, hovf]
  rw [enginePass_eq_pass, hready.pass_eq]
  exact hpass.trans (congrArg _ hres)

/-- After the master's NACK the block is idle (40_protocol_fsm.md R128). -/
theorem State.Sending.pass_nack (h : s.Sending) (ts : List Input) :
    enginePass (s.polled true ts) =
      .next { s.polled true ts with st := awaitAddress, ap := false, sdaOe := false, ovfEn := false, cnt := 8,
                                    ovfPend := false } := by
  obtain ⟨⟨hrst, hscl⟩, hst, -⟩ := h
  have hready : (s.polled true ts).PassReady readAckPoll true := ⟨hrst, (sclPull_eq_false.1 hscl).1, rfl, hst, rfl⟩
  have hnack : (s.polled true ts).sr.getLsbD 0 = true := getLsbD_shiftIn s.sr true 0
  rw [enginePass_eq_pass, hready.pass_eq]
  exact (mastersAckLoadsTheNextByteAndNackEnds _ hready).2 hnack

/-- `RB+`: a byte, the master's ACK and the load of the next byte. -/
theorem goes_tokRBack (h : s.Sending) (hi : s.inputs = turns (tokRBack ++ actions)) :
    Goes s (s.loadedNext (turns actions)) (bitsMsbFirst s.sr ++ [false]) := by
  have hi' : s.inputs = turns tokR ++ (.bus (clockCode false) :: turns actions) := by
    rw [hi, tokRBack, tokA, List.append_assoc, turns_append]
    rfl
  have hsent := goes_sent_byte h hi'
  have ⟨⟨hrst, _⟩, _⟩ := h
  have hack := goes_pass (s := s.polled false _) hrst (sclPull_iff.2 (.inr rfl)) (turns_cons_or actions) (h.pass_ack _)
  exact hsent.trans_nil' hack

/-- `RB- P`: the last byte, the master's NACK and the STOP; the block is idle, its pointer and its file kept. -/
theorem goes_last_byte (h : s.Sending) (hi : s.inputs = turns (tokRBnack ++ tokP)) :
    ∃ t, Goes s t (bitsMsbFirst s.sr ++ [true]) ∧ t.Finished ∧ t.Idle ∧ t.rf = s.rf ∧ t.ptr = s.ptr ∧
      t.rdata = s.rdata ∧ t.err = s.err := by
  have hi' : s.inputs = turns tokR ++ (.bus (clockCode true) :: turns tokP) := hi
  have hsent := goes_sent_byte h hi'
  have ⟨⟨hrst, hscl⟩, _⟩ := h
  have hscl' : State.sclPull { s.polled true (turns tokP) with ovfPend := false } = false :=
    sclPull_eq_false.2 ⟨(sclPull_eq_false.1 hscl).1, rfl⟩
  have hnack := goes_pass (s := s.polled true _) hrst (sclPull_iff.2 (.inr rfl)) (turns_cons_or tokP) (h.pass_nack (turns tokP))
  have hstop := goes_stop (rest := []) (s := { s.polled true (turns tokP) with
    st := awaitAddress, ap := false, sdaOe := false, ovfEn := false, cnt := 8, ovfPend := false })
    ⟨hrst, hscl', rfl⟩ rfl
  exact ⟨_, hsent.trans_nil' (hnack.trans_nil hstop), ⟨rfl, hscl'⟩, ⟨rfl, rfl, rfl, rfl, rfl⟩, rfl, rfl, rfl, rfl⟩

/-- The bytes of a read of `m + 1` bytes from index `p` on, each with the master's answer. -/
def State.readLevels (s : State) (p m : Nat) : List Bool :=
  (List.range (m + 1)).flatMap fun j => bitsMsbFirst (s.rfByte ((p + j) % s.n)) ++ [decide (j = m)]

theorem State.readLevels_succ (s : State) (p m : Nat) :
    s.readLevels p (m + 1) = bitsMsbFirst (s.rfByte (p % s.n)) ++ [false] ++ s.readLevels ((p + 1) % s.n) m := by
  rw [readLevels, List.range_succ_eq_map, List.flatMap_cons, List.flatMap_map, readLevels]
  congr 1
  refine List.flatMap_congr fun j _ => ?_
  rw [Nat.mod_add_mod, Nat.add_assoc, Nat.add_comm 1]
  simp

/-- All bytes of a read, the first of them loaded (40_protocol_fsm.md R131). -/
theorem goes_read_bytes (m : Nat) (h : s.Sending) (hptr : s.ptr.toNat < s.n) (hsr : s.sr = s.rfByte s.ptr.toNat)
    (hi : s.inputs = turns ((List.replicate m tokRBack).flatten ++ (tokRBnack ++ tokP))) :
    ∃ t, Goes s t (s.readLevels s.ptr.toNat m) ∧ t.Finished ∧ t.Idle ∧ t.rf = s.rf ∧
      t.ptr.toNat = (s.ptr.toNat + m) % s.n := by
  induction m generalizing s with
  | zero =>
    obtain ⟨t, hrun, hfin, hidle, hrf, hptr', -⟩ := goes_last_byte h hi
    refine ⟨t, ?_, hfin, hidle, hrf, ?_⟩
    · simpa [State.readLevels, Nat.mod_eq_of_lt hptr, ← hsr] using hrun
    · rw [hptr', Nat.add_zero, Nat.mod_eq_of_lt hptr]
  | succ m ih =>
    rw [List.replicate_succ, List.flatten_cons, List.append_assoc] at hi
    let u := s.loadedNext (turns ((List.replicate m tokRBack).flatten ++ (tokRBnack ++ tokP)))
    have hfirst : Goes s u _ := goes_tokRBack h hi
    obtain ⟨t, hrest, hfin, hidle, hrf, hptr'⟩ := ih (s := u) h s.incPtr_lt rfl rfl
    have hinc : u.ptr.toNat = (s.ptr.toNat + 1) % s.n := s.toNat_incPtr
    refine ⟨t, ?_, hfin, hidle, hrf, ?_⟩
    · rw [State.readLevels_succ, Nat.mod_eq_of_lt hptr, ← hsr, ← hinc]
      exact hfirst.trans hrest
    · rw [hptr', hinc]
      show ((s.ptr.toNat + 1) % s.n + m) % s.n = _
      rw [Nat.mod_add_mod, Nat.add_assoc, Nat.add_comm 1]

end ReadRules

/-- Settles O53: START, the address with R/W = 1, whose ACK ends with the load of the first byte, then the bytes. -/
theorem readTransactionSendsTheBytesFromThePointerOn : Obligations.ReadTransactionSendsTheBytesFromThePointerOn := by
  intro s m h hptr hi
  have hi' : s.inputs = turns (tokS ++ (tokWB (readAddrByte s.sa) ++
      ((List.replicate m tokRBack).flatten ++ (tokRBnack ++ tokP)))) := by
    rw [hi, readTranscript]
    simp only [List.append_assoc]
  have hrw : (readAddrByte s.sa).getLsbD 0 = true := getLsbD_addressByte s.sa true
  have haddress := goes_own_address (x := readAddrByte s.sa) h (extractLsb'_addressByte s.sa _) hi'
  rw [hrw] at haddress
  have hready := (h.started_listening []).passReady_acked readDataPre s.ptr s.rf
    (turns ((List.replicate m tokRBack).flatten ++ (tokRBnack ++ tokP)))
  have hload := goes_ovf_pass hready rfl (firstReadByteIsLoadedFromThePointer _ hready hptr)
  obtain ⟨t, hbytes, hfin, hidle, hrf, hptr'⟩ := goes_read_bytes (s := { (s.started []).acked readDataPre s.ptr s.rf
      (turns ((List.replicate m tokRBack).flatten ++ (tokRBnack ++ tokP))) with
        sr := s.rfByte s.ptr.toNat, sdaOe := true, st := readAckPoll, cnt := 8, ap := false, ovfPend := false })
    m ⟨⟨h.1, sclPull_eq_false.2 ⟨(sclPull_eq_false.1 h.2.1).1, rfl⟩⟩, rfl, rfl, rfl, rfl, rfl⟩ hptr rfl rfl
  obtain ⟨k, hrun⟩ := haddress.trans (hload.trans_nil hbytes)
  exact ⟨k, t, _, hrun, hfin, hidle, hrf, hptr', rfl⟩

/-- Settles O54: the pointer write leaves a state in which START is enabled, and the read from there is that of O53. -/
theorem pointerReadSendsTheBytesFromTheGivenPointerOn : Obligations.PointerReadSendsTheBytesFromTheGivenPointerOn := by
  intro s p m h hi
  have hi' : s.inputs = turns (tokS ++ (tokWB (writeAddrByte s.sa) ++ (tokWB p ++ readTranscript s.sa m))) := by
    rw [hi, ptrReadTranscript]
    simp only [List.append_assoc]
  have hhead := goes_pointer_write h hi'
  have hlisten := (h.started_listening []).received writeData (wrapPtr s.n p.toNat) s.rf (turns (readTranscript s.sa m))
  obtain ⟨k, t, levels, hread, hfin, hidle, hrf, hptr, hlevels⟩ :=
    readTransactionSendsTheBytesFromThePointerOn _ m hlisten.conditionReady (s.wrapPtr_lt p.toNat) rfl
  obtain ⟨k', hrun⟩ := hhead.trans ⟨k, hread⟩
  have hstart : ((s.started []).received writeData (wrapPtr s.n p.toNat) s.rf (turns (readTranscript s.sa m))).ptr.toNat =
      p.toNat % s.n := s.toNat_wrapPtr p.toNat
  rw [hstart] at hptr hlevels
  refine ⟨k', t, _, hrun, hfin, hidle, hrf, hptr, ?_⟩
  rw [hlevels]
  simp only [List.append_assoc]
  rfl

end Sys2Proof.Machine

/-!
PROOFS. Transactions to another address (40_protocol_fsm.md R132), and transcripts with application tokens (30_encoding.md
R96, 20_memory.md R63).
-/

namespace Sys2Proof.Machine

section DetachedRules

variable {s t : State} {actions : List (BitVec 2)}

/-- A detached block shifts in what the master drives and counts nothing (42_bus_and_bit_counter.md R183, R189). -/
theorem State.clocked_detached (hoe : s.sdaOe = false) (hen : s.ovfEn = false) (b : Bool) :
    s.clocked b = { s with line := b, sr := shiftIn s.sr b } := by
  have hcnt : s.cntAfterClock = s.cnt := by
    rw [cntAfterClock_eq, if_neg (not_counting_of_resting (.inl hen))]
  have hovf : s.ovfAfterClock = s.ovfPend := by
    rw [ovfAfterClock_eq, hen]
    simp
  rw [clocked, hcnt, hovf, sdaLine_listening hoe]

/-- The levels a master sees in these actions when nobody else drives the line: those of its CLOCKs. -/
def ownLevels (actions : List (BitVec 2)) : List Bool :=
  actions.filterMap fun c => if c.getLsbD 1 then none else some (c.getLsbD 0)

/-- Whatever the master does up to the next START, a detached block lets it pass. -/
theorem goes_detached (h : s.ClockReady) (hoe : s.sdaOe = false) (hen : s.ovfEn = false) (hS : 0b10#2 ∉ actions)
    (hi : s.inputs = turns actions) :
    ∃ t, Goes s t (ownLevels actions) ∧
      t = { s with inputs := [], line := t.line, sr := t.sr, stopFlag := t.stopFlag } := by
  induction actions generalizing s with
  | nil =>
    refine ⟨s, .refl, ?_⟩
    rw [show ([] : List Input) = s.inputs from hi.symm]
  | cons c cs ih =>
    have hc := List.ne_of_not_mem_cons hS
    have hcs := List.not_mem_of_not_mem_cons hS
    have hclock (b : Bool) (hb : c = clockCode b) : ∃ t, Goes s t (b :: ownLevels cs) ∧
        t = { s with inputs := [], line := t.line, sr := t.sr, stopFlag := t.stopFlag } := by
      have hrun := goes_clock (b := b) (rest := turns cs) h (hb ▸ hi)
      rw [State.clocked_detached (s := { s with inputs := turns cs }) hoe hen b, State.sdaLine_listening hoe] at hrun
      obtain ⟨t, hrest, hframe⟩ := ih (s := { s with inputs := turns cs, line := b, sr := shiftIn s.sr b }) h hoe hen hcs rfl
      exact ⟨t, hrun.trans hrest, hframe⟩
    rcases bitVec2_cases c with rfl | rfl | rfl | rfl
    · exact hclock false rfl
    · exact hclock true rfl
    · exact absurd rfl hc
    · have hrun := goes_stop ⟨h.1, h.2, State.sdaPull_of_not_driving hoe⟩ hi
      obtain ⟨t, hrest, hframe⟩ := ih (s := { s with inputs := turns cs, stopFlag := true }) h hoe hen hcs rfl
      exact ⟨t, hrun.trans_nil hrest, hframe⟩

end DetachedRules

/-- Settles O55: the matcher goes idle, and what follows, the ACK clock first, is sent to a detached block. -/
theorem transactionToAnotherAddressHasNoEffect : Obligations.TransactionToAnotherAddressHasNoEffect := by
  intro s a rw actions h ha hS hi
  let x : Byte := a ++ BitVec.ofBool rw
  have hi' : s.inputs = turns (tokS ++ (tokW x ++ (tokK ++ actions))) := by
    rw [hi, tokWB]
    simp only [List.append_assoc]
    rfl
  have hlisten := h.started_listening (turns (tokW x ++ (tokK ++ actions)))
  have hready := hlisten.passReady_byteIn x (turns (tokK ++ actions))
  have hother : x.extractLsb' 1 7 ≠ s.sa := by rwa [extractLsb'_addressByte]
  have hidle := goes_ovf_pass hready rfl ((addressMatcherAcksExactlyItsOwnAddress _ hready).2 hother)
  obtain ⟨t, hrest, hframe⟩ := goes_detached
    (s := { (s.started []).byteIn x (turns (tokK ++ actions)) with
      st := awaitAddress, ap := false, sdaOe := false, ovfEn := false, cnt := 8, ovfPend := false })
    ⟨h.1, sclPull_eq_false.2 ⟨(sclPull_eq_false.1 h.2.1).1, rfl⟩⟩ rfl rfl
    (List.not_mem_cons_of_ne_of_not_mem (by decide) hS) rfl
  obtain ⟨k, hrun⟩ := (goes_tokS h hi').trans_nil ((goes_tokW hlisten rfl).trans (hidle.trans_nil hrest))
  refine ⟨k, t, _, hrun, ?_⟩
  rw [hframe]
  exact ⟨⟨rfl, sclPull_eq_false.2 ⟨(sclPull_eq_false.1 h.2.1).1, rfl⟩⟩, rfl, rfl, ⟨rfl, rfl, rfl, rfl, rfl⟩, by
    rw [List.append_assoc]
    rfl⟩

section TranscriptRules

variable {s t u : State} {ts : List Input} {i : Instr}

theorem pass_withTurns (h : exec s.pass s = .next u) (r : List Input) :
    exec s.pass { s with inputs := r } = .next { u with inputs := r } := by
  rw [carries_exec s.pass s r, h]
  rfl

/-- The commands are well-formed, so the decoder reads them back (30_encoding.md R92). -/
theorem decodeCommand_of_encode {cmd : BitVec 4} {idx : Byte} {w : Word} (hi : encode i = .command cmd idx w) :
    decodeCommand cmd idx w = i := by
  have hwf : i.wf = true := by
    cases i with
    | ovfReservedState => cases hi
    | _ => rfl
  have hdecode := decodeOfEncodeIsTheInstruction i hwf
  rw [hi] at hdecode
  exact Except.ok.inj hdecode

end TranscriptRules

/-- Settles O56: `u` is the state the selected pass leaves, which completes (O20); an application token has the engine's turn
in front of it, and a bus turn waits for the pass by itself. -/
theorem transcriptHandlesThePendingEventBeforeItsNextEntry :
    Obligations.TranscriptHandlesThePendingEventBeforeItsNextEntry := by
  intro s hs hrst
  rcases Bool.eq_false_or_eq_true s.sclPull with hscl | hscl
  · have hready := engineReady_iff.2 ⟨hscl, hrst⟩
    obtain ⟨u, hu⟩ := pass_completes hs hrst hscl
    have heffect := pass_effect s.pass_isPass hu
    have hinputs : u.inputs = s.inputs := (heffect.protocolFrame (.refl s)).inputs
    refine ⟨u, fun _ => hu, fun h => absurd hscl (ne_true_of_eq_false h), heffect.sclPull, fun cmd idx w ts hi => ?_,
      fun c ts hi => ?_, fun hi => (step_pass_first (rest := []) hready (.inl hi)).trans hu⟩
    · rw [step_engine_ready hi hready, pass_withTurns hu, andThen_next]
      exact step_app rfl
    · rw [if_pos hscl, step_pass_first hready (.inr (.inl ⟨c, hi⟩)), hu, andThen_next]
      exact step_bus (hinputs.trans hi) heffect.sclPull
  · have hwaits : s.engineReady = false := by rw [State.engineReady, hscl, Bool.false_and]
    refine ⟨s, fun h => absurd h (ne_true_of_eq_false hscl), fun _ => rfl, hscl, fun cmd idx w ts hi => ?_,
      fun c ts hi => ?_, fun hi => step_nil_waits hi hwaits⟩
    · rw [step_engine_waits hi hwaits, andThen_next]
      exact step_app rfl
    · rw [if_neg (ne_true_of_eq_false hscl)]
      exact step_bus hi hscl

/-- Settles O57: `RB+` up to its pass, which comes before the operation and loads the next byte; the operation, whose effect
depends on the file alone (O28); then `RB+` and `RB- P` from what it left. -/
theorem operationBetweenTwoReadBytesLeavesTheLoadedByte :
    Obligations.OperationBetweenTwoReadBytesLeavesTheLoadedByte := by
  intro s i hready hst hap hoe hen hcnt ⟨cmd, idx, w, henc⟩ hi
  have h : s.Sending := ⟨hready, hst, hap, hoe, hen, hcnt⟩
  let tail := turns (tokRBack ++ (tokRBnack ++ tokP))
  have hi' : s.inputs = turns tokR ++ (.bus (clockCode false) :: .engine :: .app cmd idx w :: tail) := by
    rw [hi, tokApp, henc]
    simp only [schedule_append, schedule_tokBus, List.append_assoc]
    rfl
  have hsent := goes_sent_byte h hi'
  have hload := goes_engine (s := s.polled false (.engine :: .app cmd idx w :: tail)) hready.1 (sclPull_iff.2 (.inr rfl)) rfl
    (h.pass_ack _)
  obtain ⟨v, hv, -⟩ := applicationChecksDecideTheErrorCode i cmd idx w s henc hready.1
  obtain ⟨hvframe, hsame⟩ := applicationOperationsTouchOnlyTheRegisterFile i cmd idx w s v henc hv
  obtain ⟨t, ht, hrf, hrdata, herr⟩ := hsame (s.loadedNext tail) rfl rfl rfl
  obtain ⟨hframe, -⟩ := applicationOperationsTouchOnlyTheRegisterFile i cmd idx w _ t henc ht
  have happ := goes_app (s := s.loadedNext (.app cmd idx w :: tail)) rfl ((decodeCommand_of_encode henc).symm ▸ ht)
  have hsending : t.Sending := by rw [hframe]; exact h
  have hinputs : t.inputs = tail := by rw [hframe]; rfl
  have hsecond := goes_tokRBack hsending hinputs
  obtain ⟨t', hlast, hfin, hidle, hrf', hptr', hrdata', herr'⟩ := goes_last_byte (hsending.loadedNext _) rfl
  obtain ⟨k, hrun⟩ := hsent.trans ((hload.trans_nil happ).trans_nil (hsecond.trans hlast))
  have hn : t.n = s.n := by rw [hframe]; rfl
  have hptr : t.ptr.toNat = (s.ptr.toNat + 1) % s.n := by rw [hframe]; exact s.toNat_incPtr
  have hinc : t.incPtr.toNat = (s.ptr.toNat + 2) % s.n := by rw [t.toNat_incPtr, hptr, hn, Nat.mod_add_mod]
  have hloaded : t.sr = s.rfByte ((s.ptr.toNat + 1) % s.n) := by rw [hframe, ← s.toNat_incPtr]; rfl
  have hparams : t.params = v.params := by rw [hframe, hvframe]; rfl
  have hbyte : t.rfByte ((s.ptr.toNat + 2) % s.n) = v.rfByte ((s.ptr.toNat + 2) % s.n) := State.rfByte_congr hparams hrf
  refine ⟨v, k, t', _, hv, hrun, hfin, hidle, hrf'.trans hrf, hrdata'.trans hrdata, herr'.trans herr,
    (congrArg BitVec.toNat hptr').trans hinc, ?_⟩
  rw [State.loadedNext, hloaded, hinc, hbyte]
  simp only [List.append_assoc]

end Sys2Proof.Machine
